-- ==== Sys2Proof/Word.lean ====
section
/-! DEFINITION. The two word types of the spec's notation (`00_scope.md` section 5): a byte is 8 bits, `u16` is 16 bits. -/

namespace Sys2Proof

/-- `u8`: one byte; the unit of both buffers and of every transfer (R51). -/
abbrev Byte := BitVec 8

/-- `u16`: the CRC, and every 16-bit field of a frame (R52, R100). -/
abbrev Word := BitVec 16

end Sys2Proof
end

