-- ==== Sys2Proof/Config.lean ====
section
/-! DEFINITION. What is fixed for one instance of the hardware (R6 to R9), the callback contract's data (R28, R89), and the
free values of the callback port. -/

namespace Sys2Proof

/-- The seven callback kinds (R28, R89). Their numbers are in Machine/Ops.lean. -/
inductive CbKind where
  | rc   -- read-coils
  | ri   -- read-inputs
  | rh   -- read-holding-registers
  | wmc  -- write-multiple-coils
  | wsr  -- write-single-register
  | wmr  -- write-multiple-registers
  | diag -- diagnostic
  deriving DecidableEq, Repr

/-- `CB_BOUND[k]`: whether the APPLICATION answers requests of kind `k` (R7, R28). -/
structure CbBound where
  rc   : Bool
  ri   : Bool
  rh   : Bool
  wmc  : Bool
  wsr  : Bool
  wmr  : Bool
  diag : Bool
  deriving DecidableEq, Repr

/-- `CB_BOUND[k]` by kind. -/
def CbBound.bound (c : CbBound) : CbKind → Bool
  | .rc => c.rc
  | .ri => c.ri
  | .rh => c.rh
  | .wmc => c.wmc
  | .wsr => c.wsr
  | .wmr => c.wmr
  | .diag => c.diag

/-- The seven function-code numbers, named parameters (R9). -/
structure FuncCodes where
  rc   : Byte
  ri   : Byte
  rh   : Byte
  wsr  : Byte
  diag : Byte
  wmc  : Byte
  wmr  : Byte
  deriving DecidableEq, Repr

/-- The defaults of R9. All but `rh` are the spec's general knowledge (G1). PRESUMED, unsafe: log entry 2. -/
def FuncCodes.default : FuncCodes where
  rc := 0x01
  ri := 0x02
  rh := 0x03
  wsr := 0x06
  diag := 0x08
  wmc := 0x0F
  wmr := 0x10

/-- The function kinds of the closed seven-way dispatch with a default (R127). -/
inductive FuncKind where
  | rc | ri | rh | wsr | wmc | wmr | diag | other
  deriving DecidableEq, Repr

/-- The five statistics counters (R30). -/
inductive StatIx where
  | seen | addressed | ok | err | invalid
  deriving DecidableEq, Repr

/-- The four rows of the diagnostic sub-function map (R85). -/
inductive DiagKind where
  | echo
  | stat (i : StatIx)
  | user
  | unbound
  deriving DecidableEq, Repr

/-- `CRC_STRATEGY` (R8, R105). -/
inductive CrcStrategy where
  | table | bitwise
  deriving DecidableEq, Repr

/-- The parameters of R6 to R9. No command and no reset changes them (R231). -/
structure Config where
  /-- `RX_CAP` (R6). -/
  rxCap : Nat
  /-- `TX_CAP` (R6). -/
  txCap : Nat
  /-- `ADDRESS` (R7). -/
  address : Byte
  /-- `CTX_BOUND` (R7). -/
  ctxBound : Bool
  /-- `CB_BOUND` (R7). -/
  cbBound : CbBound
  /-- `CRC_STRATEGY` (R8). -/
  crcStrategy : CrcStrategy
  /-- `STATS_EN` (R8). -/
  statsEn : Bool
  /-- `STAT_BASE` (R8). -/
  statBase : Word
  /-- `STAT_W` (R8). -/
  statW : Nat
  /-- The function-code numbers (R9). -/
  fc : FuncCodes
  deriving DecidableEq, Repr

/-- The configuration `State.reset` carries: the one the spec's test vectors use (`95_test_vectors.md`), with every
callback bound. DESIGN CHOICE, unsafe: log entry 1 (the capacities, ADDRESS, CB_BOUND, STATS_EN and STAT_BASE are open). -/
def Config.vectors : Config where
  rxCap := 64
  txCap := 64
  address := 0x01
  ctxBound := true
  cbBound := ⟨true, true, true, true, true, true, true⟩
  crcStrategy := .bitwise
  statsEn := true
  statBase := 0x0100
  statW := 16
  fc := .default

/-- A callback answer (R89): `ca_ex`, `ca_null`, `ca_data` with `ca_len` its length (8 bits, so at most 255: D16), and
`ca_val`. -/
structure Answer where
  ex : Byte
  isNull : Bool
  data : List Byte
  val : Word
  lenOk : data.length ≤ 255
  deriving DecidableEq, Repr

/-- Free value: `ca_ex` of the answer to a request that `State.answers` holds no answer for. Log entry 6. -/
opaque Config.freeEx : Nat → Byte
/-- Free value: `ca_null` of such an answer. Log entry 6. -/
opaque Config.freeNull : Nat → Bool
/-- Free value: the bytes of such an answer, of which the port carries at most 255. Log entry 6. -/
opaque Config.freeData : Nat → List Byte
/-- Free value: `ca_val` of such an answer. Log entry 6. -/
opaque Config.freeVal : Nat → Word

/-- The answer to the `n`-th request where `State.answers` is exhausted: any answer the port allows (R4, R250). -/
def Config.freeAnswer (n : Nat) : Answer where
  ex := Config.freeEx n
  isNull := Config.freeNull n
  data := (Config.freeData n).take 255
  val := Config.freeVal n
  lenOk := List.length_take_le 255 _

end Sys2Proof
end

