-- ==== Sys2Proof/Syntax.lean ====
section
/-! DEFINITION. The instructions: one constructor per row of spec/opcode_table.json. -/

namespace Sys2Proof

/-- Rows of format CMD are the four commands of the port (R71). Rows of format FC and REQ_DIAG are the functions that a
PROCESS dispatches (R84, R85). An operand is a constructor's argument where it is part of the row's encoded bits (`din`, a
sub-function or a function code that the row does not fix); `start`, `count`, `data` and the data region stand in
`rx_buf` and the meaning reads them there (R140, R145). -/
inductive Instr where
  /-- R93 -/
  | nop
  /-- R110 -/
  | ingest (din : Byte)
  /-- R120 -/
  | process
  /-- R190 -/
  | drain
  /-- R142 -/
  | readCoils
  /-- R143 -/
  | readInputs
  /-- R144 -/
  | readHoldingRegisters
  /-- R146 -/
  | writeSingleRegister
  /-- R147 -/
  | writeMultipleCoils
  /-- R148 -/
  | writeMultipleRegisters
  /-- R150 -/
  | diagEcho
  /-- R151, counter 0 -/
  | diagStatSeen
  /-- R151, counter 1 -/
  | diagStatAddressed
  /-- R151, counter 2 -/
  | diagStatOk
  /-- R151, counter 3 -/
  | diagStatErr
  /-- R151, counter 4 -/
  | diagStatInvalid
  /-- R152 -/
  | diagUser (subfn : Word)
  /-- R153 -/
  | diagUnbound (subfn : Word)
  /-- R154 -/
  | unrecognized (fc : Byte)
  deriving DecidableEq, Repr

end Sys2Proof
end

