-- ==== Sys2Proof/WellFormed.lean ====
section
/-! DEFINITION. Which configurations the model accepts (R6, R8, R9) and which instructions are well-formed in one (R84 to
R86). -/

namespace Sys2Proof

/-- The seven function-code numbers, in the order of R9. -/
def FuncCodes.all (c : FuncCodes) : List Byte :=
  [c.rc, c.ri, c.rh, c.wsr, c.diag, c.wmc, c.wmr]

/-- R9: the seven values must be pairwise distinct. R9, D4 and G1 constrain them no further. DESIGN CHOICE (log entry 24): a
code of 0x80 or more is accepted, and its function then answers a success with bit 7 of the function byte set, which R86 and
R175 say cannot occur, since they take every such code for unrecognized. -/
def FuncCodes.wf (c : FuncCodes) : Bool :=
  decide c.all.Nodup

/-- The constraints of R6 (capacities), R8 (`STAT_BASE`, `STAT_W`) and R9 (function codes). -/
def Config.wf (c : Config) : Bool :=
  decide (1 ≤ c.rxCap) && decide (c.rxCap ≤ 65535) && decide (8 ≤ c.txCap) && decide (c.txCap ≤ 65535) &&
    decide (c.statBase.toNat ≤ 0xFFFB) && decide (16 ≤ c.statW) && c.fc.wf

/-- R85 row 2: `subfn` is in the statistics range of an instance that has the counters. -/
def Config.inStatRange (c : Config) (subfn : Word) : Bool :=
  c.statsEn && decide (c.statBase.toNat ≤ subfn.toNat) && decide (subfn.toNat ≤ c.statBase.toNat + 4)

/-- R85: neither echo nor statistics, what is left for the diagnostic callback. -/
def Config.isUserSub (c : Config) (subfn : Word) : Bool :=
  decide (subfn ≠ 0) && !c.inStatRange subfn

/-- An instruction is well-formed in a configuration when some command or request is encoded by it there: the statistics
rows need `STATS_EN = 1`, and counter 0 is unreachable with `STAT_BASE = 0` (D14, D34); `DIAG_USER` and `DIAG_UNBOUND`
hold a sub-function that the earlier tests of R85 leave over, with `CB_BOUND[DIAG]` as the row says; `UNRECOGNIZED` holds
none of the seven codes (R86). -/
def Instr.wf (c : Config) : Instr → Bool
  | .nop => true
  | .ingest _ => true
  | .process => true
  | .drain => true
  | .readCoils => true
  | .readInputs => true
  | .readHoldingRegisters => true
  | .writeSingleRegister => true
  | .writeMultipleCoils => true
  | .writeMultipleRegisters => true
  | .diagEcho => true
  | .diagStatSeen => c.statsEn && decide (c.statBase ≠ 0)
  | .diagStatAddressed => c.statsEn
  | .diagStatOk => c.statsEn
  | .diagStatErr => c.statsEn
  | .diagStatInvalid => c.statsEn
  | .diagUser subfn => c.isUserSub subfn && c.cbBound.diag
  | .diagUnbound subfn => c.isUserSub subfn && !c.cbBound.diag
  | .unrecognized f => decide (f ∉ c.fc.all)

end Sys2Proof
end

