-- ==== Sys2Proof/Decode.lean ====
section
/-! DEFINITION. Byte order (R52 to R54), the decoder of the two kinds of encoding (the command port, R71; the function
code and sub-function of a request, R84, R85), the encoder, and the reading of the opcode table's words. -/

namespace Sys2Proof

/-- `v[15:8]`. -/
def hiByte (v : Word) : Byte := v.extractLsb' 8 8

/-- `v[7:0]`. -/
def loByte (v : Word) : Byte := v.extractLsb' 0 8

/-- `{hi, lo}`: a big-endian field, the byte at the lower offset first (R52, R54). -/
def beWord (hi lo : Byte) : Word := hi ++ lo

/-- The seven-way case on the function code, with its default (R84, R127). -/
def FuncKind.ofCode (c : FuncCodes) (f : Byte) : FuncKind :=
  if f = c.rc then .rc
  else if f = c.ri then .ri
  else if f = c.rh then .rh
  else if f = c.wsr then .wsr
  else if f = c.wmc then .wmc
  else if f = c.wmr then .wmr
  else if f = c.diag then .diag
  else .other

/-- The counter an offset in the statistics range selects (R30, R151). -/
def StatIx.ofOffset : Nat → Option StatIx
  | 0 => some .seen
  | 1 => some .addressed
  | 2 => some .ok
  | 3 => some .err
  | 4 => some .invalid
  | _ => none

/-- The offset of a counter in the statistics range (R30). -/
def StatIx.offset : StatIx → Nat
  | .seen => 0
  | .addressed => 1
  | .ok => 2
  | .err => 3
  | .invalid => 4

/-- R85 row 2: the counter a sub-function selects, if it is in the statistics range and the counters exist. -/
def statIndex (c : Config) (subfn : Word) : Option StatIx :=
  if c.statsEn = true ∧ c.statBase.toNat ≤ subfn.toNat then StatIx.ofOffset (subfn.toNat - c.statBase.toNat) else none

/-- The diagnostic sub-function map, tested in the order of R85. -/
def DiagKind.ofSub (c : Config) (subfn : Word) : DiagKind :=
  if subfn = 0 then .echo
  else
    match statIndex c subfn with
    | some i => .stat i
    | none => if c.cbBound.diag = true then .user else .unbound

/-- The row of R85 that a sub-function of `FC_DIAG` stands for. -/
def decodeDiag (c : Config) (subfn : Word) : Instr :=
  match DiagKind.ofSub c subfn with
  | .echo => .diagEcho
  | .stat .seen => .diagStatSeen
  | .stat .addressed => .diagStatAddressed
  | .stat .ok => .diagStatOk
  | .stat .err => .diagStatErr
  | .stat .invalid => .diagStatInvalid
  | .user => .diagUser subfn
  | .unbound => .diagUnbound subfn

/-- The row that a request's function code and the two bytes after it stand for (R84, R85, R127). Total: every code and
every sub-function has a row. -/
def decodeFunction (c : Config) (f : Byte) (subfn : Word) : Instr :=
  match FuncKind.ofCode c.fc f with
  | .rc => .readCoils
  | .ri => .readInputs
  | .rh => .readHoldingRegisters
  | .wsr => .writeSingleRegister
  | .wmc => .writeMultipleCoils
  | .wmr => .writeMultipleRegisters
  | .diag => decodeDiag c subfn
  | .other => .unrecognized f

/-- The four command codes (R71). Total: there is no reserved code. `din` is ignored by all but INGEST. -/
def decodeCommand (cmd : BitVec 2) (din : Byte) : Instr :=
  if cmd = 0 then .nop
  else if cmd = 1 then .ingest din
  else if cmd = 2 then .process
  else .drain

/-- What is encoded (`30_encoding.md`): a transaction of the command port, or the bytes of a request from the function
code on. -/
inductive Code where
  | command (cmd : BitVec 2) (din : Byte)
  | request (bytes : List Byte)
  deriving DecidableEq, Repr

/-- Why bytes are no instruction: only for lack of bytes, since every code has a meaning (R86). -/
inductive DecodeError where
  /-- a request without a function-code byte -/
  | noFunctionCode
  /-- a diagnostic request without its two sub-function bytes -/
  | noSubfunction
  deriving DecidableEq, Repr

/-- The decoder: total on any transaction and any bytes. -/
def decode (c : Config) : Code → Except DecodeError Instr
  | .command cmd din => .ok (decodeCommand cmd din)
  | .request [] => .error .noFunctionCode
  | .request (f :: rest) =>
    match rest with
    | hi :: lo :: _ => .ok (decodeFunction c f (beWord hi lo))
    | _ => if FuncKind.ofCode c.fc f = .diag then .error .noSubfunction else .ok (decodeFunction c f 0)

/-- The bytes of a diagnostic request from the function code on (R76). -/
def encodeDiag (c : Config) (subfn : Word) : Code :=
  .request [c.fc.diag, hiByte subfn, loByte subfn]

/-- The sub-function that selects a counter (R30, R151). -/
def statSub (c : Config) (i : StatIx) : Word :=
  c.statBase + BitVec.ofNat 16 i.offset

/-- The encoder, from R71 (commands), R84 (function codes) and R85 (sub-functions). The bits the command port ignores
(`din` of NOP, PROCESS, DRAIN) are 0. -/
def encode (c : Config) : Instr → Code
  | .nop => .command 0 0
  | .ingest din => .command 1 din
  | .process => .command 2 0
  | .drain => .command 3 0
  | .readCoils => .request [c.fc.rc]
  | .readInputs => .request [c.fc.ri]
  | .readHoldingRegisters => .request [c.fc.rh]
  | .writeSingleRegister => .request [c.fc.wsr]
  | .writeMultipleCoils => .request [c.fc.wmc]
  | .writeMultipleRegisters => .request [c.fc.wmr]
  | .diagEcho => encodeDiag c 0
  | .diagStatSeen => encodeDiag c (statSub c .seen)
  | .diagStatAddressed => encodeDiag c (statSub c .addressed)
  | .diagStatOk => encodeDiag c (statSub c .ok)
  | .diagStatErr => encodeDiag c (statSub c .err)
  | .diagStatInvalid => encodeDiag c (statSub c .invalid)
  | .diagUser subfn => encodeDiag c subfn
  | .diagUnbound subfn => encodeDiag c subfn
  | .unrecognized f => .request [f]

/-- What a word of the opcode table stands for on the hardware. DESIGN CHOICE, log entry 12: the table's three formats
number their bits apart. Format CMD (2 bits, or 10 with `din` above `cmd`): `cmd` in bits 1:0, `din` in bits 9:2. Format
FC (8 bits): the function code, the sub-function bytes being 0. Format REQ_DIAG (24 bits): the function code in bits
23:16, the sub-function in bits 15:0, as the table's `match_layout` says. Eight bits below 4 are words of two formats; they
are read as the command, the row the table lists first. The 24-bit form gives every function code. -/
def tableCode (nbits w : Nat) : Option Code :=
  if nbits ≤ 8 then
    if w < 4 then some (.command (BitVec.ofNat 2 w) 0)
    else if nbits = 8 ∧ w < 2 ^ 8 then some (.request [BitVec.ofNat 8 w, 0, 0])
    else none
  else if nbits ≤ 16 then
    if w < 2 ^ 10 then some (.command (BitVec.ofNat 2 w) (BitVec.ofNat 8 (w / 4))) else none
  else if nbits = 24 then
    if w < 2 ^ 24 then
      some (.request [BitVec.ofNat 8 (w / 2 ^ 16), BitVec.ofNat 8 (w / 2 ^ 8), BitVec.ofNat 8 w])
    else none
  else none

/-- The instruction the decoder reads from a word of the opcode table, in the configuration of `State.reset` (the table
shows its words for the default function codes and `STAT_BASE = 0x0100`, which that configuration has). -/
def decodeTableWord (nbits w : Nat) : Option Instr :=
  match tableCode nbits w with
  | none => none
  | some code =>
    match decode Config.vectors code with
    | .ok i => some i
    | .error _ => none

end Sys2Proof
end

