-- ==== Sys2Proof/Machine/State.lean ====
section
/-! DEFINITION. The state of R20 to R31, the two ports as plain data (R70, R89, R249, R250), the reasons a step can stop,
and the state right after reset (R38, R230). -/

namespace Sys2Proof.Machine

/-- The nine result codes (R72). Their numbers are in Machine/Flags.lean. 9 to 15 are never produced (U6). -/
inductive Result where
  | ok
  | answeredError
  | errNull
  | errInvalidPacket
  | errCrc
  | errAddressMismatch
  | errBroadcastUnsupported
  | errRxOverflow
  | msgEnded
  deriving DecidableEq, Repr

/-- What a command returns to the TRANSPORT (R70). -/
structure Output where
  result : Result
  dout : Byte
  deriving DecidableEq, Repr

/-- A callback request (R89): `cb_kind`, `cb_a`, `cb_b`, `cb_data`. `cb_kind` as a number and `cb_dlen` are in
Machine/Ops.lean. -/
structure CbRequest where
  kind : CbKind
  a : Word
  b : Word
  data : List Byte
  deriving DecidableEq, Repr

/-- What the TRANSPORT may do at the ports (R70, R230, R250). -/
inductive PortEvent where
  | command (cmd : BitVec 2) (din : Byte)
  | reset
  deriving DecidableEq, Repr

/-- The five counters of the Device Context (R29, R30). Each is below `2 ^ STAT_W` (R31), which is an invariant. -/
structure Stats where
  seen : Nat
  addressed : Nat
  ok : Nat
  err : Nat
  invalid : Nat
  deriving DecidableEq, Repr

/-- The counters after reset (R38, R230). -/
def Stats.zero : Stats := ⟨0, 0, 0, 0, 0⟩

/-- One of the two address spaces (R50): offsets and the bytes written to them, offsets strictly rising. An offset that
is not listed has no value (R38, U9). -/
abbrev Memory := List Host.Cell

/-- The machine: the parameters, the six items of the Operation (R20), the counters (R29), and the ports. -/
structure State where
  /-- The parameters of R6 to R9. -/
  cfg : Config
  /-- `rx_buf` (R21). -/
  rxBuf : Memory
  /-- `rx_len` (R22). -/
  rxLen : Nat
  /-- `crc` (R23). -/
  crc : Word
  /-- `tx_buf` (R24). -/
  txBuf : Memory
  /-- `tx_len` (R25). -/
  txLen : Nat
  /-- `tx_rem` (R26). -/
  txRem : Nat
  /-- `stat[0..4]` (R29, R30). -/
  stats : Stats
  /-- What the TRANSPORT will issue, oldest first (R250). Log entry 5. -/
  pending : List PortEvent
  /-- What the APPLICATION will answer, oldest first (R89, R250). Log entry 6. -/
  answers : List Answer
  /-- What the commands returned, newest first (R249). Log entry 8. -/
  outputs : List Output
  /-- The callback requests issued, newest first (R249). Log entry 8. -/
  requests : List CbRequest
  deriving DecidableEq, Repr

/-- Why the machine stops. Every one is safe: each is an access that R65 says no rule makes, in a state that R35 rules
out. Log entries 3, 14. -/
inductive Fault where
  /-- An access to `RX` at an offset that does not exist (R50). Raised by INGEST and PROCESS. Safe. -/
  | rxOutOfRange (a : Nat)
  /-- A read of a byte of `rx_buf` never written since reset (R38, U9). Raised by PROCESS. Safe. -/
  | rxNoValue (a : Nat)
  /-- An access to `TX` at an offset that does not exist (R50). Raised by PROCESS and DRAIN. Safe. -/
  | txOutOfRange (a : Nat)
  /-- A read of a byte of `tx_buf` never written since reset (R38, U9). Raised by PROCESS and DRAIN. Safe. -/
  | txNoValue (a : Nat)
  /-- `tx_len - tx_rem` below 0 (R26 says it never is). Raised by DRAIN. Safe. -/
  | drainUnderflow
  deriving DecidableEq, Repr

/-- Why the machine gives no meaning. -/
inductive Refusal where
  /-- An instruction without a meaning yet; raised by `exec`'s arm alone (no arm does). Safe. -/
  | notModelled (mnemonic : String)
  /-- A configuration that breaks a constraint of R6, R8 or R9. R6 and U12, U15 say "refuse" of the capacities and of
  `STAT_BASE`; of `STAT_W` and of the function codes the refusal is the model's choice, as is that `step` raises every
  one. Raised by `step`. Safe. Log entry 18. -/
  | badConfig
  deriving DecidableEq, Repr

/-- The state after reset of an instance with the parameters `c` (R38, R230). -/
def State.resetOf (c : Config) : State where
  cfg := c
  rxBuf := []
  rxLen := 0
  crc := 0xFFFF
  txBuf := []
  txLen := 0
  txRem := 0
  stats := Stats.zero
  pending := []
  answers := []
  outputs := []
  requests := []

/-- The machine right after reset (R38, R230), as an instance with the configuration of log entry 1. -/
def State.reset : State := State.resetOf Config.vectors

end Sys2Proof.Machine
end

