-- ==== Sys2Proof/Machine/Memory.lean ====
section
/-! DEFINITION. The operations over one address space (R50, R51, R56): a list of cells, offsets strictly rising. -/

namespace Sys2Proof.Machine

/-- The canonical form: offsets strictly rising. (An unlisted offset has no value, so no cell can be equal to it.) -/
def Memory.wf : Memory → Bool
  | [] => true
  | [_] => true
  | x :: y :: m => decide (x.1 < y.1) && Memory.wf (y :: m)

/-- Every listed offset exists in a space of `cap` bytes (R50). -/
def Memory.within (cap : Nat) (m : Memory) : Bool :=
  m.all fun x => decide (x.1 < cap)

/-- The byte at an offset, or no value (R38, R56). -/
def Memory.read : Memory → Nat → Option Byte
  | [], _ => none
  | x :: m, a => if x.1 = a then some x.2 else Memory.read m a

/-- One byte stored; the cell's place keeps the offsets rising (R56). -/
def Memory.write : Memory → Nat → Byte → Memory
  | [], a, b => [(a, b)]
  | x :: m, a, b =>
    if a < x.1 then (a, b) :: x :: m
    else if x.1 = a then (a, b) :: m
    else x :: Memory.write m a b

/-- The bytes of a list stored from offset `a` on, in ascending offset order (R56). -/
def Memory.writes (m : Memory) (a : Nat) : List Byte → Memory
  | [] => m
  | b :: bs => (m.write a b).writes (a + 1) bs

/-- The `n` bytes from offset `a` on, or no value if one of them has none. -/
def Memory.readRange (m : Memory) (a : Nat) : Nat → Option (List Byte)
  | 0 => some []
  | n + 1 =>
    match m.read a, m.readRange (a + 1) n with
    | some b, some bs => some (b :: bs)
    | _, _ => none

end Sys2Proof.Machine
end

