-- ==== Sys2Proof/Machine/Flags.lean ====
section
/-! DEFINITION. The hardware has no flags and no condition codes (R33). This file holds what stands in their place: the
result output (R72) and the statistics counters (R29 to R31), with every update of them. -/

namespace Sys2Proof.Machine

/-- `SENTINEL` (R10, D20): `dout` of every command but a DRAIN that returns a byte (R71, R191). Log entry 22. -/
def sentinel : Byte := 0x00

/-- The 4-bit result output (R72). -/
def Result.code : Result → BitVec 4
  | .ok => 0
  | .answeredError => 1
  | .errNull => 2
  | .errInvalidPacket => 3
  | .errCrc => 4
  | .errAddressMismatch => 5
  | .errBroadcastUnsupported => 6
  | .errRxOverflow => 7
  | .msgEnded => 8

/-- `return r`: the command ends with the result `r` and `dout = SENTINEL` (R71). -/
def State.ret (s : State) (r : Result) : State :=
  { s with outputs := ⟨r, sentinel⟩ :: s.outputs }

/-- A DRAIN that returns a response byte (R190). -/
def State.retByte (s : State) (b : Byte) : State :=
  { s with outputs := ⟨.ok, b⟩ :: s.outputs }

/-- `stat[i]` (R30). -/
def Stats.get (t : Stats) : StatIx → Nat
  | .seen => t.seen
  | .addressed => t.addressed
  | .ok => t.ok
  | .err => t.err
  | .invalid => t.invalid

/-- `stat[i] <- v`. -/
def Stats.set (t : Stats) (i : StatIx) (v : Nat) : Stats :=
  match i with
  | .seen => { t with seen := v }
  | .addressed => { t with addressed := v }
  | .ok => { t with ok := v }
  | .err => { t with err := v }
  | .invalid => { t with invalid := v }

/-- `stat[i] += 1` on the counters alone: modulo `2 ^ STAT_W` when `STATS_EN = 1`, else nothing (R29, R31). -/
def Stats.count (c : Config) (t : Stats) (i : StatIx) : Stats :=
  if c.statsEn = true then t.set i ((t.get i + 1) % 2 ^ c.statW) else t

/-- `stat[i] += 1`. -/
def State.count (s : State) (i : StatIx) : State :=
  { s with stats := s.stats.count s.cfg i }

/-- `stat[i][15:0]`: the data word of a statistics read (R31, R151). -/
def State.statWord (s : State) (i : StatIx) : Word :=
  BitVec.ofNat 16 (s.stats.get i)

end Sys2Proof.Machine
end

