-- ==== Sys2Proof/Machine/Operands.lean ====
section
/-! DEFINITION. The operand forms: bytes and big-endian fields of the two buffers (R54, R56), the fields F and G of a
request (R140), the data region of a write (R145). An access outside a buffer, or a read of a byte without a value, faults;
R65 says that no rule makes one. -/

namespace Sys2Proof.Machine

/-- `MemRead(RX, a, 1)` (R54). -/
def State.rxByte (s : State) (a : Nat) : Except Fault Byte :=
  if a < s.cfg.rxCap then
    match s.rxBuf.read a with
    | some b => .ok b
    | none => .error (.rxNoValue a)
  else .error (.rxOutOfRange a)

/-- `MemRead(RX, a, 2)`: big-endian (R52, R54). -/
def State.rxWord (s : State) (a : Nat) : Except Fault Word := do
  let hi ← s.rxByte a
  let lo ← s.rxByte (a + 1)
  pure (beWord hi lo)

/-- `rx_buf[a .. a+n-1]`, in ascending offset order (R56). -/
def State.rxBytes (s : State) (a : Nat) : Nat → Except Fault (List Byte)
  | 0 => pure []
  | n + 1 => do
    let b ← s.rxByte a
    let bs ← s.rxBytes (a + 1) n
    pure (b :: bs)

/-- `rx_buf[a] <- b`: the single-byte store of INGEST (R54, R110). -/
def State.rxStore (s : State) (a : Nat) (b : Byte) : Except Fault State :=
  if a < s.cfg.rxCap then .ok { s with rxBuf := s.rxBuf.write a b } else .error (.rxOutOfRange a)

/-- `tx_buf[a]`. -/
def State.txByte (s : State) (a : Nat) : Except Fault Byte :=
  if a < s.cfg.txCap then
    match s.txBuf.read a with
    | some b => .ok b
    | none => .error (.txNoValue a)
  else .error (.txOutOfRange a)

/-- `tx_buf[a .. a+n-1]`, in ascending offset order. -/
def State.txBytes (s : State) (a : Nat) : Nat → Except Fault (List Byte)
  | 0 => pure []
  | n + 1 => do
    let b ← s.txByte a
    let bs ← s.txBytes (a + 1) n
    pure (b :: bs)

/-- `MemWrite(TX, a, 1, b)` (R54). -/
def State.txStore (s : State) (a : Nat) (b : Byte) : Except Fault State :=
  if a < s.cfg.txCap then .ok { s with txBuf := s.txBuf.write a b } else .error (.txOutOfRange a)

/-- A bulk move into `tx_buf` from offset `a` on, in ascending offset order (R56). -/
def State.txStores (s : State) (a : Nat) : List Byte → Except Fault State
  | [] => pure s
  | b :: bs => do
    let s' ← s.txStore a b
    s'.txStores (a + 1) bs

/-- `MemWrite(TX, a, 2, v)`: big-endian (R52, R54). -/
def State.txStoreWord (s : State) (a : Nat) (v : Word) : Except Fault State :=
  s.txStores a [hiByte v, loByte v]

/-- `tx_buf[a .. a+n-1] <- rx_buf[a .. a+n-1]`: the echo of request bytes (R145, R150). -/
def State.echo (s : State) (a n : Nat) : Except Fault State := do
  let bs ← s.rxBytes a n
  s.txStores a bs

/-- `F = MemRead(RX, 2, 2)`: `start`, or `subfn` (R140). -/
def State.fieldF (s : State) : Except Fault Word := s.rxWord 2

/-- `G = MemRead(RX, 4, 2)`: `count`, or `data` (R140). -/
def State.fieldG (s : State) : Except Fault Word := s.rxWord 4

/-- `dlen = max(n - 8, 0)` (R64, R145, D17). -/
def dataLen (n : Nat) : Nat := n - 8

/-- The data region of a write request of `n` bytes: `rx_buf[6 .. 6+dlen-1]` (R75, R145). -/
def State.dataRegion (s : State) (n : Nat) : Except Fault (List Byte) := s.rxBytes 6 (dataLen n)

end Sys2Proof.Machine
end

