-- ==== Sys2Proof/Machine/Ops.lean ====
section
/-! DEFINITION. The operations the meanings share: the callback exchange (R89, R156), raising a protocol exception (R170,
R220) and what follows it (R172 to R174, R222), the seven validation steps of PROCESS (R120 to R131), reset (R230), and what
the port presents next (R70, R93). -/

namespace Sys2Proof

/-- `cb_kind`, the 3-bit number of a callback kind at the callback port (R89). -/
def CbKind.code : CbKind → BitVec 3
  | .rc => 0
  | .ri => 1
  | .rh => 2
  | .wmc => 3
  | .wsr => 4
  | .wmr => 5
  | .diag => 6

end Sys2Proof

namespace Sys2Proof.Machine

/-- The outcome of a function handler (R127). -/
inductive HandlerOutcome where
  | ok
  | answeredError
  deriving DecidableEq, Repr

/-- What a handler returns: the state, the outcome, and `L`, the number of bytes of `tx_buf` filled so far (R127). -/
structure Handled where
  state : State
  outcome : HandlerOutcome
  len : Nat
  deriving DecidableEq, Repr

/-- A function handler takes the frame length snapshot and the state (R127). -/
abbrev Handler := Nat → State → Except Fault Handled

/-- The result code PROCESS returns for a handler's outcome (R131). -/
def HandlerOutcome.result : HandlerOutcome → Result
  | .ok => .ok
  | .answeredError => .answeredError

/-- The counter of a unicast response with that outcome (R174). -/
def HandlerOutcome.counter : HandlerOutcome → StatIx
  | .ok => .ok
  | .answeredError => .err

/-- The machine's outcome of a computation that may fault. -/
def outcomeOf : Except Fault State → Host.Outcome State Fault Refusal
  | .ok s => .next s
  | .error f => .fault f

/-! ## Callbacks -/

/-- The request field `cb_kind` (R89). -/
def CbRequest.kindCode (q : CbRequest) : BitVec 3 := q.kind.code

/-- The request field `cb_dlen` (R89). -/
def CbRequest.dlen (q : CbRequest) : Nat := q.data.length

/-- The answer the APPLICATION gives to the next request: the oldest answer held, or a free value (R4, log entry 6). -/
def State.nextAnswer (s : State) : Answer :=
  match s.answers with
  | [] => Config.freeAnswer s.requests.length
  | x :: _ => x

/-- `Callback(k, args)`: one request goes out, its answer is consumed (R89, R156). The answer is `s.nextAnswer`. -/
def State.callback (s : State) (q : CbRequest) : State :=
  { s with answers := s.answers.tail, requests := q :: s.requests }

/-! ## Protocol exceptions -/

/-- `EX_ILLEGAL_FUNCTION` (R83). -/
def exIllegalFunction : Byte := 0x01

/-- `EX_ILLEGAL_DATA_ADDRESS` (R83). -/
def exIllegalDataAddress : Byte := 0x02

/-- `EX_DEVICE_FAILURE` (R83). -/
def exDeviceFailure : Byte := 0x04

/-- `raise ProtocolException(e)`, the hardware's only exception entry (R170, R220): the function byte with bit 7 set, the
exception code, `L = 3`. It saves nothing and changes no mode. There is no return from it (R222): `finish` follows. -/
def raiseException (e : Byte) (s : State) : Except Fault Handled := do
  let f ← s.rxByte 1
  let s1 ← s.txStore 1 (f ||| 0x80)
  let s2 ← s1.txStore 2 e
  pure ⟨s2, .answeredError, 3⟩

/-- The unbound case: `stat[4] += 1`, then "illegal function" (R155). -/
def raiseUnbound (s : State) : Except Fault Handled :=
  raiseException exIllegalFunction (s.count .invalid)

/-! ## Finishing the response -/

/-- `Finish(0, outcome, L)`: the trailing CRC, low byte first, `tx_len`, `tx_rem` and the counter (R172, R174). That a
success never has bit 7 of `tx_buf[1]` set (R175) rests on the configured codes being below 0x80: log entry 24. -/
def finishUnicast (h : Handled) : Except Fault State := do
  let body ← h.state.txBytes 0 h.len
  let s1 ← h.state.txStores h.len (crcBytes (crc16By h.state.cfg.crcStrategy body))
  pure ({ s1 with txLen := h.len + 2, txRem := h.len + 2 }.count h.outcome.counter)

/-- `Finish(1, outcome, L)`: the response is discarded, no counter (R173, R174). -/
def finishBroadcast (h : Handled) : Except Fault State :=
  pure { h.state with txLen := 0, txRem := 0 }

/-- `Finish(bc, outcome, L)` (R128). -/
def finish (bc : Bool) (h : Handled) : Except Fault State :=
  if bc = true then finishBroadcast h else finishUnicast h

/-! ## The steps of PROCESS -/

/-- `MIN_FRAME` (R10, R123). -/
def minFrame : Nat := 7

/-- The four cases of address resolution (R125). -/
inductive AddrClass where
  | unicast
  | broadcast
  | unsupported
  | mismatch
  deriving DecidableEq, Repr

/-- Step 4, in the order of R125: with `ADDRESS = 0` the first test wins (D23). -/
def resolveAddress (c : Config) (a f : Byte) : AddrClass :=
  if a = c.address then .unicast
  else if a = 0x00 ∧ f = c.fc.wmr then .broadcast
  else if a = 0x00 then .unsupported
  else .mismatch

/-- `n <- rx_len; rx_len <- 0` (R120); the caller keeps `n`. -/
def State.consumeFrame (s : State) : State := { s with rxLen := 0 }

/-- `tx_len <- 0; tx_rem <- 0` (R122). -/
def State.clearResponse (s : State) : State := { s with txLen := 0, txRem := 0 }

/-- Steps 5 to 7 for an accepted frame: header (R126), handler (R127), `Finish` (R128), `stat_seen` (R130), the result
(R131). -/
def respond (h : Handler) (n : Nat) (bc : Bool) (a f : Byte) (s : State) : Except Fault State := do
  let s1 ← s.txStore 0 a
  let s2 ← s1.txStore 1 f
  let r ← h n s2
  let s3 ← finish bc r
  pure ((s3.count .seen).ret r.outcome.result)

/-- Step 4 and what follows it, for a frame that passed length and CRC (R125). -/
def resolveAndRespond (h : Handler) (n : Nat) (s : State) : Except Fault State := do
  let a ← s.rxByte 0
  let f ← s.rxByte 1
  match resolveAddress s.cfg a f with
  | .unicast => respond h n false a f (s.count .addressed)
  | .broadcast => respond h n true a f s
  | .unsupported => pure ((s.count .seen).ret .errBroadcastUnsupported)
  | .mismatch => pure ((s.count .seen).ret .errAddressMismatch)

/-- Steps 2 and 3: minimum length and CRC residue (R123, R124), of a frame of `n` bytes. -/
def validate (h : Handler) (n : Nat) (s : State) : Except Fault State :=
  if n < minFrame then .ok (((s.count .invalid).count .seen).ret .errInvalidPacket)
  else if s.crc ≠ 0x0000 then .ok (((s.count .invalid).count .seen).ret .errCrc)
  else resolveAndRespond h n s

/-- The whole PROCESS command (R133) with the handler `h` at step 6: the snapshot (R120), the null-context guard (R121),
the clearing of the previous response (R122), the steps. -/
def processWith (h : Handler) (s : State) : Except Fault State :=
  if s.cfg.ctxBound = false then .ok (s.consumeFrame.ret .errNull)
  else validate h s.rxLen s.consumeFrame.clearResponse

/-! ## Reset, and the port -/

/-- The reset event (R230): the parameters stay (R231), the buffers hold no value, and what the ports hold of the run so
far and of the agents' intentions stays (log entry 23). -/
def State.applyReset (s : State) : State :=
  { s with rxBuf := [], rxLen := 0, crc := 0xFFFF, txBuf := [], txLen := 0, txRem := 0, stats := Stats.zero }

/-- What the port presents next, and the state with it taken from the port. An idle port presents `cmd = 00` (R71, R93;
log entry 4). -/
def State.fetch (s : State) : PortEvent × State :=
  match s.pending with
  | [] => (.command 0 0, s)
  | e :: es => (e, { s with pending := es })

/-- A request frame as the wire carries it: device address, function code, the bytes after it up to offset 5 (0 where
`body` gives none), and the CRC (R73). -/
def requestFrame (c : Config) (body : List Byte) : List Byte :=
  let bytes := c.address :: (List.range 5).map (fun i => body.getD i 0)
  bytes ++ crcBytes (crc16 bytes)

/-- The state that a code is fetched in next: a transaction stands at the port; a request stands in `rx_buf` as an
ingested unicast frame, with PROCESS at the port (R63; log entry 13). -/
def State.withCode (s : State) : Code → State
  | .command cmd din => { s with pending := .command cmd din :: s.pending }
  | .request body =>
    let frame := requestFrame s.cfg body
    { s with
      rxBuf := s.rxBuf.writes 0 frame
      rxLen := frame.length
      crc := crc16 frame
      pending := .command 2 0 :: s.pending }

end Sys2Proof.Machine
end

