-- ==== Sys2Proof/Machine/Commands.lean ====
section
/-! DEFINITION. The commands NOP (R93), INGEST (R110 to R116) and DRAIN (R190 to R194). -/

namespace Sys2Proof.Machine

/-- NOP (R93): `OK` with `dout = SENTINEL`; no state is read or written. -/
def execNop (s : State) : Host.Outcome State Fault Refusal :=
  .next (s.ret .ok)

/-- The running CRC an INGEST folds its byte into: reseeded on the first byte of a frame (R111). -/
def State.seed (s : State) : Word :=
  if s.rxLen = 0 then crcInit else s.crc

/-- The fill length after an increment, and the result: the overflow test comes after the increment, by equality (R112,
D9). -/
def State.advance (s : State) : State :=
  if s.rxLen + 1 = s.cfg.rxCap then { s with rxLen := 0 }.ret .errRxOverflow
  else { s with rxLen := s.rxLen + 1 }.ret .ok

/-- INGEST (R110): store, increment, fold, overflow test. -/
def ingest (b : Byte) (s : State) : Except Fault State := do
  let s1 ← s.rxStore s.rxLen b
  pure { s1 with crc := crcAddBy s.cfg.crcStrategy b s.seed }.advance

/-- INGEST (R110). -/
def execIngest (din : Byte) (s : State) : Host.Outcome State Fault Refusal :=
  outcomeOf (ingest din s)

/-- DRAIN (R190, R191): the byte at `tx_len - tx_rem`, or `MSG_ENDED`. -/
def drain (s : State) : Except Fault State :=
  if s.txRem = 0 then .ok (s.ret .msgEnded)
  else if s.txLen < s.txRem then .error .drainUnderflow
  else do
    let b ← s.txByte (s.txLen - s.txRem)
    pure ({ s with txRem := s.txRem - 1 }.retByte b)

/-- DRAIN (R190). -/
def execDrain (s : State) : Host.Outcome State Fault Refusal :=
  outcomeOf (drain s)

end Sys2Proof.Machine
end

