-- ==== Sys2Proof/Machine/Diag.lean ====
section
/-! DEFINITION. The diagnostic functions (R149 to R153) and the unrecognized function codes (R154). -/

namespace Sys2Proof.Machine

/-- Sub-function 0, echo (R150). -/
def handleDiagEcho : Handler := fun _ s => do
  let s1 ← s.echo 2 4
  pure ⟨s1, .ok, 6⟩

/-- A diagnostic answer with the data word `v` (R151, R152, R81): the sub-function bytes echoed, then `v` big-endian. -/
def diagReply (v : Word) (s : State) : Except Fault Handled := do
  let s1 ← s.echo 2 2
  let s2 ← s1.txStoreWord 4 v
  pure ⟨s2, .ok, 6⟩

/-- Statistics read of counter `i`, as it stands when the handler runs (R151). -/
def handleDiagStat (i : StatIx) : Handler := fun _ s => diagReply (s.statWord i) s

/-- A caller-defined sub-function (R152). -/
def handleDiagUser (subfn : Word) : Handler := fun _ s => do
  let data ← s.fieldG
  let x := s.nextAnswer
  let s1 := s.callback ⟨.diag, subfn, data, []⟩
  if x.ex ≠ 0x00 then raiseException x.ex s1 else diagReply x.val s1

/-- Any other sub-function without a diagnostic callback (R153, R155). -/
def handleDiagUnbound : Handler := fun _ s => raiseUnbound s

/-- An unrecognized function code (R154): no field is extracted, `stat_invalid` is not touched. -/
def handleUnrecognized : Handler := fun _ s => raiseException exIllegalFunction s

/-- DIAG_ECHO (R150). -/
def execDiagEcho (s : State) : Host.Outcome State Fault Refusal :=
  outcomeOf (processWith handleDiagEcho s)

/-- DIAG_STAT_SEEN (R151, offset 0). -/
def execDiagStatSeen (s : State) : Host.Outcome State Fault Refusal :=
  outcomeOf (processWith (handleDiagStat .seen) s)

/-- DIAG_STAT_ADDRESSED (R151, offset 1). -/
def execDiagStatAddressed (s : State) : Host.Outcome State Fault Refusal :=
  outcomeOf (processWith (handleDiagStat .addressed) s)

/-- DIAG_STAT_OK (R151, offset 2). -/
def execDiagStatOk (s : State) : Host.Outcome State Fault Refusal :=
  outcomeOf (processWith (handleDiagStat .ok) s)

/-- DIAG_STAT_ERR (R151, offset 3). -/
def execDiagStatErr (s : State) : Host.Outcome State Fault Refusal :=
  outcomeOf (processWith (handleDiagStat .err) s)

/-- DIAG_STAT_INVALID (R151, offset 4). -/
def execDiagStatInvalid (s : State) : Host.Outcome State Fault Refusal :=
  outcomeOf (processWith (handleDiagStat .invalid) s)

/-- DIAG_USER (R152). -/
def execDiagUser (subfn : Word) (s : State) : Host.Outcome State Fault Refusal :=
  outcomeOf (processWith (handleDiagUser subfn) s)

/-- DIAG_UNBOUND (R153). The rule reads no operand: the error frame takes its function byte from `rx_buf[1]` (R170). -/
def execDiagUnbound (_subfn : Word) (s : State) : Host.Outcome State Fault Refusal :=
  outcomeOf (processWith handleDiagUnbound s)

/-- UNRECOGNIZED (R154). The error frame takes its function byte from `rx_buf[1]` (R170). -/
def execUnrecognized (_fc : Byte) (s : State) : Host.Outcome State Fault Refusal :=
  outcomeOf (processWith handleUnrecognized s)

end Sys2Proof.Machine
end

