-- ==== Sys2Proof/Machine/Read.lean ====
section
/-! DEFINITION. The read functions (R141 to R144). -/

namespace Sys2Proof.Machine

/-- The response of a read callback's answer (R141): exception, then null data, then fit, then the data (D35). -/
def readReply (x : Answer) (s : State) : Except Fault Handled :=
  if x.ex ≠ 0x00 then raiseException x.ex s
  else if x.isNull = true then raiseException exDeviceFailure s
  else if s.cfg.txCap < 3 + x.data.length + 2 then raiseException exIllegalDataAddress s
  else do
    let s1 ← s.txStore 2 (BitVec.ofNat 8 x.data.length)
    let s2 ← s1.txStores 3 x.data
    pure ⟨s2, .ok, 3 + x.data.length⟩

/-- `Read(k)` (R141). -/
def readHandler (k : CbKind) : Handler := fun _ s => do
  let start ← s.fieldF
  let count ← s.fieldG
  if s.cfg.cbBound.bound k = false then raiseUnbound s
  else readReply s.nextAnswer (s.callback ⟨k, start, count, []⟩)

/-- `FC_RC` (R142). -/
def handleReadCoils : Handler := readHandler .rc

/-- `FC_RI` (R143). -/
def handleReadInputs : Handler := readHandler .ri

/-- `FC_RH` (R144). -/
def handleReadHoldingRegisters : Handler := readHandler .rh

/-- READ_COILS (R142). -/
def execReadCoils (s : State) : Host.Outcome State Fault Refusal :=
  outcomeOf (processWith handleReadCoils s)

/-- READ_INPUTS (R143). -/
def execReadInputs (s : State) : Host.Outcome State Fault Refusal :=
  outcomeOf (processWith handleReadInputs s)

/-- READ_HOLDING_REGISTERS (R144). -/
def execReadHoldingRegisters (s : State) : Host.Outcome State Fault Refusal :=
  outcomeOf (processWith handleReadHoldingRegisters s)

end Sys2Proof.Machine
end

