-- ==== Sys2Proof/Machine/Write.lean ====
section
/-! DEFINITION. The write functions (R145 to R148). -/

namespace Sys2Proof.Machine

/-- The response of a write callback's answer (R145): its exception, or the echo of bytes 2 to 5. -/
def writeReply (x : Answer) (s : State) : Except Fault Handled :=
  if x.ex ≠ 0x00 then raiseException x.ex s
  else do
    let s1 ← s.echo 2 4
    pure ⟨s1, .ok, 6⟩

/-- `Write(k)` (R145). -/
def writeHandler (k : CbKind) : Handler := fun n s => do
  let start ← s.fieldF
  let count ← s.fieldG
  if s.cfg.cbBound.bound k = false then raiseUnbound s
  else do
    let data ← s.dataRegion n
    writeReply s.nextAnswer (s.callback ⟨k, start, count, data⟩)

/-- `FC_WSR` (R146). -/
def handleWriteSingleRegister : Handler := writeHandler .wsr

/-- `FC_WMC` (R147). -/
def handleWriteMultipleCoils : Handler := writeHandler .wmc

/-- `FC_WMR` (R148). -/
def handleWriteMultipleRegisters : Handler := writeHandler .wmr

/-- WRITE_SINGLE_REGISTER (R146). -/
def execWriteSingleRegister (s : State) : Host.Outcome State Fault Refusal :=
  outcomeOf (processWith handleWriteSingleRegister s)

/-- WRITE_MULTIPLE_COILS (R147). -/
def execWriteMultipleCoils (s : State) : Host.Outcome State Fault Refusal :=
  outcomeOf (processWith handleWriteMultipleCoils s)

/-- WRITE_MULTIPLE_REGISTERS (R148). -/
def execWriteMultipleRegisters (s : State) : Host.Outcome State Fault Refusal :=
  outcomeOf (processWith handleWriteMultipleRegisters s)

end Sys2Proof.Machine
end

