-- ==== Sys2Proof/Machine/Process.lean ====
section
/-! DEFINITION. The command PROCESS with its dispatch (R127, R149). -/

namespace Sys2Proof.Machine

/-- The diagnostic handler: the sub-function chooses, in the order of R85 (R149). -/
def handleDiag : Handler := fun n s => do
  let subfn ← s.fieldF
  match DiagKind.ofSub s.cfg subfn with
  | .echo => handleDiagEcho n s
  | .stat i => handleDiagStat i n s
  | .user => handleDiagUser subfn n s
  | .unbound => handleDiagUnbound n s

/-- Step 6: the handler is chosen by `f = rx_buf[1]` alone (R127). -/
def dispatch : Handler := fun n s => do
  let f ← s.rxByte 1
  match FuncKind.ofCode s.cfg.fc f with
  | .rc => handleReadCoils n s
  | .ri => handleReadInputs n s
  | .rh => handleReadHoldingRegisters n s
  | .wsr => handleWriteSingleRegister n s
  | .wmc => handleWriteMultipleCoils n s
  | .wmr => handleWriteMultipleRegisters n s
  | .diag => handleDiag n s
  | .other => handleUnrecognized n s

/-- PROCESS (R120, R133). -/
def execProcess (s : State) : Host.Outcome State Fault Refusal :=
  outcomeOf (processWith dispatch s)

end Sys2Proof.Machine
end

