-- ==== Sys2Proof/Machine/Dispatch.lean ====
section
/-! DEFINITION. One arm per constructor of Instr. -/

namespace Sys2Proof.Machine

def exec (i : Instr) (s : State) : Host.Outcome State Fault Refusal :=
  match i with
  | .nop => Sys2Proof.Machine.execNop s
  | .ingest din => Sys2Proof.Machine.execIngest din s
  | .process => Sys2Proof.Machine.execProcess s
  | .drain => Sys2Proof.Machine.execDrain s
  | .readCoils => Sys2Proof.Machine.execReadCoils s
  | .readInputs => Sys2Proof.Machine.execReadInputs s
  | .readHoldingRegisters => Sys2Proof.Machine.execReadHoldingRegisters s
  | .writeSingleRegister => Sys2Proof.Machine.execWriteSingleRegister s
  | .writeMultipleCoils => Sys2Proof.Machine.execWriteMultipleCoils s
  | .writeMultipleRegisters => Sys2Proof.Machine.execWriteMultipleRegisters s
  | .diagEcho => Sys2Proof.Machine.execDiagEcho s
  | .diagStatSeen => Sys2Proof.Machine.execDiagStatSeen s
  | .diagStatAddressed => Sys2Proof.Machine.execDiagStatAddressed s
  | .diagStatOk => Sys2Proof.Machine.execDiagStatOk s
  | .diagStatErr => Sys2Proof.Machine.execDiagStatErr s
  | .diagStatInvalid => Sys2Proof.Machine.execDiagStatInvalid s
  | .diagUser subfn => Sys2Proof.Machine.execDiagUser subfn s
  | .diagUnbound subfn => Sys2Proof.Machine.execDiagUnbound subfn s
  | .unrecognized fc => Sys2Proof.Machine.execUnrecognized fc s

end Sys2Proof.Machine
end

