-- ==== Sys2Proof/Machine/Step.lean ====
section
/-! DEFINITION. One step: a configuration the model refuses (R6), or what the port presents next (R4, R5, R70, R230). -/

namespace Sys2Proof.Machine

/-- One command or one reset event (R5). -/
def step (s : State) : Host.Outcome State Fault Refusal :=
  if s.cfg.wf = false then .refused .badConfig
  else
    match s.fetch with
    | (.reset, t) => .next t.applyReset
    | (.command cmd din, t) => exec (decodeCommand cmd din) t

/-- `s` with the instruction that a word of the opcode table stands for where `step` fetches it next (log entries 12,
13). A word that stands for none leaves `s` as it is. -/
def State.withFetchWord (s : State) (nbits w : Nat) : State :=
  match tableCode nbits w with
  | some code => s.withCode code
  | none => s

end Sys2Proof.Machine
end

