-- ==== Sys2Proof/Safety.lean ====
section
/-! DEFINITION. The terms the claims are stated in: the invariant between commands (R35), an accepted frame waiting for
PROCESS (R123 to R125), and what a PROCESS leaves behind (R120, R172 to R174, R177). -/

namespace Sys2Proof.Machine

/-- The invariant between commands: R35 (a) to (d), with what R6 (the configuration), R31 (counter widths), R29 (no counter
without `STATS_EN`), R65 (no byte below a fill length is without a value) and R172 (`tx_len` at most 260) add. -/
structure State.Inv (s : State) : Prop where
  cfgOk : s.cfg.wf = true
  rxWf : s.rxBuf.wf = true
  rxWithin : s.rxBuf.within s.cfg.rxCap = true
  txWf : s.txBuf.wf = true
  txWithin : s.txBuf.within s.cfg.txCap = true
  /-- R35 (a) -/
  rxLenLt : s.rxLen < s.cfg.rxCap
  /-- R35 (c) -/
  rxFrame : ∃ bs, s.rxBuf.readRange 0 s.rxLen = some bs ∧ (0 < s.rxLen → s.crc = crc16 bs)
  /-- R35 (b) -/
  txRemLe : s.txRem ≤ s.txLen
  /-- R35 (b) -/
  txLenLe : s.txLen ≤ s.cfg.txCap
  /-- R88, R172 -/
  txLenMax : s.txLen ≤ 260
  /-- R35 (d) -/
  txFrame : ∃ bs, s.txBuf.readRange 0 s.txLen = some bs ∧ (0 < s.txLen → 5 ≤ s.txLen ∧ crc16 bs = 0x0000)
  /-- R31 -/
  statsLt : ∀ i, s.stats.get i < 2 ^ s.cfg.statW
  /-- R29 -/
  statsOff : s.cfg.statsEn = false → s.stats = Stats.zero

/-- The instructions whose meaning is a PROCESS command: PROCESS itself and every function row. -/
def runsProcess : Instr → Bool
  | .nop => false
  | .ingest _ => false
  | .process => true
  | .drain => false
  | .readCoils => true
  | .readInputs => true
  | .readHoldingRegisters => true
  | .writeSingleRegister => true
  | .writeMultipleCoils => true
  | .writeMultipleRegisters => true
  | .diagEcho => true
  | .diagStatSeen => true
  | .diagStatAddressed => true
  | .diagStatOk => true
  | .diagStatErr => true
  | .diagStatInvalid => true
  | .diagUser _ => true
  | .diagUnbound _ => true
  | .unrecognized _ => true

/-- The three read rows with their callback kinds (R142 to R144). -/
def readRows : List (Instr × CbKind) :=
  [(.readCoils, .rc), (.readInputs, .ri), (.readHoldingRegisters, .rh)]

/-- The three write rows with their callback kinds (R146 to R148). -/
def writeRows : List (Instr × CbKind) :=
  [(.writeSingleRegister, .wsr), (.writeMultipleCoils, .wmc), (.writeMultipleRegisters, .wmr)]

/-- The five statistics rows with their counters (R151). -/
def statRows : List (Instr × StatIx) :=
  [(.diagStatSeen, .seen), (.diagStatAddressed, .addressed), (.diagStatOk, .ok), (.diagStatErr, .err),
    (.diagStatInvalid, .invalid)]

/-- `stat[i] += 1` for each counter of a list, in order (R29, R31). -/
def State.counted (s : State) (l : List StatIx) : Stats :=
  l.foldl (fun t i => t.count s.cfg i) s.stats

/-- A frame that passes the guard, the length test and the CRC test waits for PROCESS (R121, R123, R124), and these are
the bytes at offsets 0 to 5 of it (R57). -/
structure State.HasRequest (s : State) (a f b2 b3 b4 b5 : Byte) : Prop where
  ctx : s.cfg.ctxBound = true
  len : 7 ≤ s.rxLen
  residue : s.crc = 0x0000
  bytes : s.rxBuf.readRange 0 6 = some [a, f, b2, b3, b4, b5]

/-- What every PROCESS leaves unchanged from `s` to `t`: the parameters (R231), `rx_buf` and `crc` (R120), and what is at
the command port; and that it consumes the frame (R120) and returns `(r, SENTINEL)` (R71). -/
structure State.Processed (s t : State) (r : Result) : Prop where
  cfg : t.cfg = s.cfg
  rxBuf : t.rxBuf = s.rxBuf
  crc : t.crc = s.crc
  pending : t.pending = s.pending
  rxLen : t.rxLen = 0
  outputs : t.outputs = ⟨r, 0x00⟩ :: s.outputs

/-- A unicast answer: the frame `body` with its CRC, low byte first, waits to be drained; every other byte of `tx_buf` is
as before (R172, R177). -/
structure State.Answered (s t : State) (body : List Byte) (o : HandlerOutcome) : Prop where
  common : s.Processed t o.result
  txLen : t.txLen = body.length + 2
  txRem : t.txRem = body.length + 2
  frame : t.txBuf.readRange 0 (body.length + 2) = some (body ++ [loByte (crc16 body), hiByte (crc16 body)])
  rest : ∀ k, body.length + 2 ≤ k → t.txBuf.read k = s.txBuf.read k

/-- A broadcast: `tx_len` and `tx_rem` are 0, only the first `L` bytes of `tx_buf` may have changed (R173). -/
structure State.Suppressed (s t : State) (o : HandlerOutcome) (L : Nat) : Prop where
  common : s.Processed t o.result
  txLen : t.txLen = 0
  txRem : t.txRem = 0
  rest : ∀ k, L ≤ k → t.txBuf.read k = s.txBuf.read k

/-- One callback request was issued and its answer consumed (R89, R156). -/
structure State.Asked (s t : State) (q : CbRequest) : Prop where
  requests : t.requests = q :: s.requests
  answers : t.answers = s.answers.tail

/-- No callback request was issued. -/
structure State.NotAsked (s t : State) : Prop where
  requests : t.requests = s.requests
  answers : t.answers = s.answers

/-- The state after a frame that is dropped with the result `r`: no response, the counters of `l` incremented, nothing
else (R202 to R205). -/
def State.dropped (s : State) (r : Result) (l : List StatIx) : State :=
  { s with rxLen := 0, txLen := 0, txRem := 0, stats := s.counted l, outputs := ⟨r, 0x00⟩ :: s.outputs }

/-- `k` DRAINs, one after the other (R192). -/
def drains : Nat → State → Host.Outcome State Fault Refusal
  | 0, s => .next s
  | k + 1, s =>
    match exec .drain s with
    | .next t => drains k t
    | .fault r => .fault r
    | .refused r => .refused r

/-- INGESTs of the bytes of a list, one after the other (R111). -/
def ingests : List Byte → State → Host.Outcome State Fault Refusal
  | [], s => .next s
  | b :: bs, s =>
    match exec (.ingest b) s with
    | .next t => ingests bs t
    | .fault r => .fault r
    | .refused r => .refused r

/-- The same instance with the other CRC strategy (R105). -/
def State.withStrategy (s : State) (st : CrcStrategy) : State :=
  { s with cfg := { s.cfg with crcStrategy := st } }

/-- Two answers that a request of kind `k` cannot tell apart: answer fields a kind does not use are ignored, and every
other field when `ca_ex` is not 0 (R89). -/
def answersAgree (k : CbKind) (x y : Answer) : Prop :=
  x.ex = y.ex ∧
    (x.ex = 0x00 →
      match k with
      | .rc => x.isNull = y.isNull ∧ x.data = y.data
      | .ri => x.isNull = y.isNull ∧ x.data = y.data
      | .rh => x.isNull = y.isNull ∧ x.data = y.data
      | .wmc => True
      | .wsr => True
      | .wmr => True
      | .diag => x.val = y.val)

end Sys2Proof.Machine
end

