-- ==== Sys2Proof/Certificates/Slice0/Obligations.lean ====
section
/-! DEFINITION. The statements for the provers. Each is listed in OBLIGATIONS.json with the rules it formalises. -/

open Sys2Proof Sys2Proof.Machine

/-! ## The CRC engine -/

/-- R101: the 256 printed entries are `crc16_add(0x00, i)`, and the table form equals the bitwise form. -/
def Obligations.CrcTableFormEqualsBitwise : Prop :=
  crcTable.length = 256 ∧
  (∀ i : Byte, crcTableAt i = crc16Add 0x00 (i.setWidth 16)) ∧
  (∀ (b : Byte) (c : Word), crc16AddTable b c = crc16Add b c)

/-- R104: folding a sequence's own CRC, low byte first, leaves residue zero; with the rule's worked example. -/
def Obligations.CrcResidueIsZero : Prop :=
  (∀ p : List Byte, crc16 (p ++ [loByte (crc16 p), hiByte (crc16 p)]) = 0x0000) ∧
  crc16 [0x01, 0x03, 0x12, 0x34, 0x00, 0x05] = 0x7FC1 ∧
  crc16 [0x01, 0x03, 0x12, 0x34, 0x00, 0x05, 0xC1, 0x7F] = 0x0000

/-- R106, R100: `crc16_add` is linear over GF(2), depends on the exclusive-or of byte and state only, and is a bijection on
the state for a fixed byte. -/
def Obligations.CrcAddIsLinearAndBijective : Prop :=
  (∀ (b1 b2 : Byte) (c1 c2 : Word), crc16Add (b1 ^^^ b2) (c1 ^^^ c2) = crc16Add b1 c1 ^^^ crc16Add b2 c2) ∧
  (∀ (b : Byte) (c : Word), crc16Add b c = crc16Add 0x00 (c ^^^ b.setWidth 16)) ∧
  (∀ b : Byte, Function.Bijective (crc16Add b))

/-- R105: the strategy has no visible effect; the same step is taken with either. -/
def Obligations.CrcStrategyIsInvisible : Prop :=
  ∀ (s t : State) (st : CrcStrategy), step s = .next t → step (s.withStrategy st) = .next (t.withStrategy st)

/-! ## Encoding -/

/-- Decoding the encoding of a well-formed instruction gives it back, with every operand value (R71, R84, R85). -/
def Obligations.DecodeOfEncode : Prop :=
  ∀ (c : Config) (i : Instr), c.wf = true → i.wf c = true → decode c (encode c i) = .ok i

/-- R86, R71: every command code and every request has exactly one row, and that row's encoding is the code itself (the
bits the command port ignores being 0), or a prefix of the request. -/
def Obligations.EveryCodeHasItsRow : Prop :=
  (∀ (c : Config) (cmd : BitVec 2) (din : Byte), ∃ i, decode c (.command cmd din) = .ok i ∧ i.wf c = true ∧
    encode c i = .command cmd (if cmd = 1 then din else 0)) ∧
  (∀ (c : Config) (f hi lo : Byte) (rest : List Byte), c.wf = true →
    ∃ i bytes, decode c (.request (f :: hi :: lo :: rest)) = .ok i ∧ i.wf c = true ∧ runsProcess i = true ∧
      encode c i = .request bytes ∧ bytes <+: f :: hi :: lo :: rest)

/-- Words of R71, R84 and R85 written out decode to their rows (with the configuration of log entry 1). -/
def Obligations.KnownWordsDecode : Prop :=
  decode Config.vectors (.command 0 0x00) = .ok .nop ∧
  decode Config.vectors (.command 1 0xA5) = .ok (.ingest 0xA5) ∧
  decode Config.vectors (.command 2 0x00) = .ok .process ∧
  decode Config.vectors (.command 3 0x00) = .ok .drain ∧
  decode Config.vectors (.request [0x03]) = .ok .readHoldingRegisters ∧
  decode Config.vectors (.request [0x10]) = .ok .writeMultipleRegisters ∧
  decode Config.vectors (.request [0x08, 0x00, 0x00]) = .ok .diagEcho ∧
  decode Config.vectors (.request [0x08, 0x01, 0x04]) = .ok .diagStatInvalid ∧
  decode Config.vectors (.request [0x08, 0x01, 0x05]) = .ok (.diagUser 0x0105) ∧
  decode Config.vectors (.request [0x83]) = .ok (.unrecognized 0x83)

/-- R72: the nine result codes by number. -/
def Obligations.ResultCodeNumbers : Prop :=
  [Result.ok, .answeredError, .errNull, .errInvalidPacket, .errCrc, .errAddressMismatch, .errBroadcastUnsupported,
    .errRxOverflow, .msgEnded].map Result.code = [0, 1, 2, 3, 4, 5, 6, 7, 8]

/-! ## Memory -/

/-- R54, R52: two-byte fields are big-endian, in reading `RX` and in writing `TX`; a write of two bytes changes those two
only. -/
def Obligations.FieldsAreBigEndian : Prop :=
  (∀ (s : State) (a : Nat) (hi lo : Byte), a + 1 < s.cfg.rxCap → s.rxBuf.read a = some hi →
    s.rxBuf.read (a + 1) = some lo → ∃ v : Word, s.rxWord a = .ok v ∧ v.toNat = hi.toNat * 256 + lo.toNat) ∧
  (∀ (s : State) (a : Nat) (v : Word), a + 1 < s.cfg.txCap → ∃ t hi lo, s.txStoreWord a v = .ok t ∧
    v.toNat = hi.toNat * 256 + lo.toNat ∧ t.txBuf.read a = some hi ∧ t.txBuf.read (a + 1) = some lo ∧
    t = { s with txBuf := t.txBuf } ∧
    ∀ k, k ≠ a → k ≠ a + 1 → t.txBuf.read k = s.txBuf.read k)

/-! ## NOP, INGEST, DRAIN -/

/-- R93: the code `00` is NOP; NOP returns `OK` with `dout = SENTINEL` and changes nothing, in any state. -/
def Obligations.NopReturnsOk : Prop :=
  (∀ (c : Config) (din : Byte), decode c (.command 0 din) = .ok .nop) ∧
  ∀ s : State, exec .nop s = .next { s with outputs := ⟨.ok, 0x00⟩ :: s.outputs }

/-- R110, R111, R112: the code `01` is INGEST of `din`; INGEST stores its byte at `rx_len`, reseeds the CRC on the first
byte, folds the byte, increments `rx_len`, and at `RX_CAP` discards the frame with `ERR_RX_OVERFLOW`; nothing else
changes. -/
def Obligations.IngestStoresFoldsAndCounts : Prop :=
  (∀ (c : Config) (b : Byte), decode c (.command 1 b) = .ok (.ingest b)) ∧
  ∀ (b : Byte) (s : State), s.rxLen < s.cfg.rxCap →
    exec (.ingest b) s = .next { s with
      rxBuf := s.rxBuf.write s.rxLen b
      crc := crc16Add b (if s.rxLen = 0 then 0xFFFF else s.crc)
      rxLen := if s.rxLen + 1 = s.cfg.rxCap then 0 else s.rxLen + 1
      outputs := ⟨if s.rxLen + 1 = s.cfg.rxCap then .errRxOverflow else .ok, 0x00⟩ :: s.outputs }

/-- R111, R22: INGESTs of a frame shorter than `RX_CAP` from an empty accumulator hold the frame and its CRC. -/
def Obligations.IngestsAccumulateTheFrame : Prop :=
  ∀ (bs : List Byte) (s : State), s.rxLen = 0 → bs ≠ [] → bs.length < s.cfg.rxCap →
    ∃ t, ingests bs s = .next t ∧
      t = { s with
        rxBuf := t.rxBuf
        rxLen := bs.length
        crc := crc16 bs
        outputs := List.replicate bs.length ⟨.ok, 0x00⟩ ++ s.outputs } ∧
      t.rxBuf.readRange 0 bs.length = some bs ∧
      ∀ k, bs.length ≤ k → t.rxBuf.read k = s.rxBuf.read k

/-- R112: a stream of bytes with no PROCESS returns `ERR_RX_OVERFLOW` on the `RX_CAP`-th INGEST, and leaves an empty
accumulator. -/
def Obligations.IngestsOverflowAtCapacity : Prop :=
  ∀ (bs : List Byte) (s : State), s.rxLen = 0 → 1 ≤ s.cfg.rxCap → bs.length = s.cfg.rxCap →
    ∃ t, ingests bs s = .next t ∧
      t = { s with
        rxBuf := t.rxBuf
        rxLen := 0
        crc := crc16 bs
        outputs := ⟨.errRxOverflow, 0x00⟩ :: (List.replicate (bs.length - 1) ⟨.ok, 0x00⟩ ++ s.outputs) }

/-- R190, R191: the code `11` is DRAIN; DRAIN returns the byte at `tx_len - tx_rem`, the first that is not yet drained
(C5), and decrements `tx_rem`; with `tx_rem = 0` it returns `(SENTINEL, MSG_ENDED)`; nothing else changes. -/
def Obligations.DrainReturnsNextByte : Prop :=
  (∀ (c : Config) (din : Byte), decode c (.command 3 din) = .ok .drain) ∧
  (∀ s : State, s.txRem = 0 → exec .drain s = .next { s with outputs := ⟨.msgEnded, 0x00⟩ :: s.outputs }) ∧
  (∀ (s : State) (b : Byte), 0 < s.txRem → s.txRem ≤ s.txLen → s.txLen ≤ s.cfg.txCap →
    s.txBuf.read (s.txLen - s.txRem) = some b →
    exec .drain s = .next { s with txRem := s.txRem - 1, outputs := ⟨.ok, b⟩ :: s.outputs })

/-- R192, R190: successive DRAINs return what is left of the response in wire order, then `MSG_ENDED`. -/
def Obligations.DrainsReturnTheFrameInWireOrder : Prop :=
  ∀ (s : State) (bs : List Byte), s.Inv → s.txBuf.readRange 0 s.txLen = some bs →
    ∃ t, drains s.txRem s = .next t ∧
      t = { s with
        txRem := 0
        outputs := ((bs.drop (s.txLen - s.txRem)).map fun b => (⟨.ok, b⟩ : Output)).reverse ++ s.outputs } ∧
      exec .drain t = .next { t with outputs := ⟨.msgEnded, 0x00⟩ :: t.outputs }

/-- R193, R242: INGEST and DRAIN do not affect each other: in either order they leave the same state and return the same
two outputs. -/
def Obligations.IngestAndDrainCommute : Prop :=
  ∀ (s : State) (b : Byte), s.Inv →
    ∃ t u t' u' o p,
      exec (.ingest b) s = .next t ∧ exec .drain t = .next u ∧
      exec .drain s = .next t' ∧ exec (.ingest b) t' = .next u' ∧
      u.outputs = p :: o :: s.outputs ∧ u'.outputs = o :: p :: s.outputs ∧
      u' = { u with outputs := u'.outputs }

/-! ## PROCESS: frames that are dropped -/

/-- R121, R201: without a context a PROCESS returns `ERR_NULL`, and nothing but `rx_len` changes. -/
def Obligations.NullContextReturnsErrNull : Prop :=
  ∀ (i : Instr) (s : State), runsProcess i = true → s.cfg.ctxBound = false →
    exec i s = .next { s with rxLen := 0, outputs := ⟨.errNull, 0x00⟩ :: s.outputs }

/-- R123, R202: a frame of fewer than 7 bytes is dropped with `ERR_INVALID_PACKET`. -/
def Obligations.ShortFrameIsDropped : Prop :=
  ∀ (i : Instr) (s : State), runsProcess i = true → s.cfg.ctxBound = true → s.rxLen < 7 →
    exec i s = .next (s.dropped .errInvalidPacket [.invalid, .seen])

/-- R124, R203: a frame with a nonzero CRC residue is dropped with `ERR_CRC`. -/
def Obligations.BadCrcIsDropped : Prop :=
  ∀ (i : Instr) (s : State), runsProcess i = true → s.cfg.ctxBound = true → 7 ≤ s.rxLen → s.crc ≠ 0x0000 →
    exec i s = .next (s.dropped .errCrc [.invalid, .seen])

/-- R125, R204: a frame for another nonzero address is dropped with `ERR_ADDRESS_MISMATCH`. -/
def Obligations.OtherAddressIsDropped : Prop :=
  ∀ (i : Instr) (s : State) (a f b2 b3 b4 b5 : Byte), runsProcess i = true → s.Inv → s.HasRequest a f b2 b3 b4 b5 →
    a ≠ s.cfg.address → a ≠ 0x00 →
    exec i s = .next (s.dropped .errAddressMismatch [.seen])

/-- R125, R205: a broadcast of anything but write-multiple-registers is dropped with `ERR_BROADCAST_UNSUPPORTED`. -/
def Obligations.OtherBroadcastIsDropped : Prop :=
  ∀ (i : Instr) (s : State) (f b2 b3 b4 b5 : Byte), runsProcess i = true → s.Inv →
    s.HasRequest 0x00 f b2 b3 b4 b5 → s.cfg.address ≠ 0x00 → f ≠ s.cfg.fc.wmr →
    exec i s = .next (s.dropped .errBroadcastUnsupported [.seen])

/-! ## PROCESS: dispatch -/

/-- R127, R149: a PROCESS of a frame that passes length and CRC runs the row that its function code and sub-function decode
to. -/
def Obligations.ProcessRunsTheDecodedFunction : Prop :=
  ∀ (s : State) (a f b2 b3 b4 b5 : Byte) (i : Instr), s.Inv → s.HasRequest a f b2 b3 b4 b5 →
    decode s.cfg (.request [f, b2, b3]) = .ok i → exec .process s = exec i s

/-- R120, R36: `rx_len` is 0 after every PROCESS, whatever its result. -/
def Obligations.ProcessConsumesTheFrame : Prop :=
  ∀ (i : Instr) (s t : State), runsProcess i = true → exec i s = .next t → t.rxLen = 0

/-- R132: a second PROCESS with no INGEST between is a too-short frame: no callback, an invalid frame counted, the
response dropped. -/
def Obligations.RepeatedProcessIsTooShort : Prop :=
  ∀ s t : State, exec .process s = .next t → t.cfg.ctxBound = true →
    exec .process t = .next (t.dropped .errInvalidPacket [.invalid, .seen])

/-- R131, R176, R35: in every state that meets the invariant a unicast frame is answered, whatever the function and
whatever the callback answers: the result is `OK` or `ANSWERED_ERROR`, and the response has at least 5 bytes, all still to
be drained, and residue zero. -/
def Obligations.UnicastFrameIsAnswered : Prop :=
  ∀ (i : Instr) (s : State) (f b2 b3 b4 b5 : Byte), runsProcess i = true → s.Inv →
    s.HasRequest s.cfg.address f b2 b3 b4 b5 →
    ∃ t bs o, exec i s = .next t ∧ s.Processed t (HandlerOutcome.result o) ∧ 5 ≤ t.txLen ∧ t.txRem = t.txLen ∧
      t.txBuf.readRange 0 t.txLen = some bs ∧ crc16 bs = 0x0000

/-! ## The functions -/

/-- R141 to R144: a read function answers the callback's data, their length first. -/
def Obligations.ReadAnswersTheData : Prop :=
  ∀ p ∈ readRows, ∀ (s : State) (f b2 b3 b4 b5 : Byte), s.Inv → s.HasRequest s.cfg.address f b2 b3 b4 b5 →
    s.cfg.cbBound.bound p.2 = true → s.nextAnswer.ex = 0x00 → s.nextAnswer.isNull = false →
    3 + s.nextAnswer.data.length + 2 ≤ s.cfg.txCap →
    ∃ t, exec p.1 s = .next t ∧
      s.Answered t ([s.cfg.address, f, BitVec.ofNat 8 s.nextAnswer.data.length] ++ s.nextAnswer.data) .ok ∧
      t.stats = s.counted [.addressed, .ok, .seen] ∧
      s.Asked t ⟨p.2, beWord b2 b3, beWord b4 b5, []⟩

/-- R141, R219: a read function whose callback answers an exception, null data, or data that do not fit, answers the
exception, 0x04, or 0x02, tested in this order. -/
def Obligations.ReadAnswersTheException : Prop :=
  ∀ p ∈ readRows, ∀ (s : State) (f b2 b3 b4 b5 e : Byte), s.Inv → s.HasRequest s.cfg.address f b2 b3 b4 b5 →
    s.cfg.cbBound.bound p.2 = true →
    ((s.nextAnswer.ex ≠ 0x00 ∧ e = s.nextAnswer.ex) ∨
      (s.nextAnswer.ex = 0x00 ∧ s.nextAnswer.isNull = true ∧ e = 0x04) ∨
      (s.nextAnswer.ex = 0x00 ∧ s.nextAnswer.isNull = false ∧ s.cfg.txCap < 3 + s.nextAnswer.data.length + 2 ∧
        e = 0x02)) →
    ∃ t, exec p.1 s = .next t ∧ s.Answered t [s.cfg.address, f ||| 0x80, e] .answeredError ∧
      t.stats = s.counted [.addressed, .err, .seen] ∧
      s.Asked t ⟨p.2, beWord b2 b3, beWord b4 b5, []⟩

/-- R145 to R148: a write function passes the data region to the callback and echoes bytes 2 to 5. -/
def Obligations.WriteEchoesTheRequest : Prop :=
  ∀ p ∈ writeRows, ∀ (s : State) (f b2 b3 b4 b5 : Byte) (data : List Byte), s.Inv →
    s.HasRequest s.cfg.address f b2 b3 b4 b5 → s.rxBuf.readRange 6 (s.rxLen - 8) = some data →
    s.cfg.cbBound.bound p.2 = true → s.nextAnswer.ex = 0x00 →
    ∃ t, exec p.1 s = .next t ∧ s.Answered t [s.cfg.address, f, b2, b3, b4, b5] .ok ∧
      t.stats = s.counted [.addressed, .ok, .seen] ∧
      s.Asked t ⟨p.2, beWord b2 b3, beWord b4 b5, data⟩

/-- R145: a write function whose callback answers an exception answers it. -/
def Obligations.WriteAnswersTheException : Prop :=
  ∀ p ∈ writeRows, ∀ (s : State) (f b2 b3 b4 b5 : Byte) (data : List Byte), s.Inv →
    s.HasRequest s.cfg.address f b2 b3 b4 b5 → s.rxBuf.readRange 6 (s.rxLen - 8) = some data →
    s.cfg.cbBound.bound p.2 = true → s.nextAnswer.ex ≠ 0x00 →
    ∃ t, exec p.1 s = .next t ∧ s.Answered t [s.cfg.address, f ||| 0x80, s.nextAnswer.ex] .answeredError ∧
      t.stats = s.counted [.addressed, .err, .seen] ∧
      s.Asked t ⟨p.2, beWord b2 b3, beWord b4 b5, data⟩

/-- R155, R153: an unbound read or write function, and a diagnostic sub-function without a callback, answer "illegal
function" and count an invalid frame; no callback is issued. -/
def Obligations.UnboundIsIllegalFunction : Prop :=
  ∀ (s : State) (f b2 b3 b4 b5 : Byte) (i : Instr), s.Inv → s.HasRequest s.cfg.address f b2 b3 b4 b5 →
    ((∃ p ∈ readRows ++ writeRows, i = p.1 ∧ s.cfg.cbBound.bound p.2 = false) ∨ (∃ subfn, i = .diagUnbound subfn)) →
    ∃ t, exec i s = .next t ∧ s.Answered t [s.cfg.address, f ||| 0x80, 0x01] .answeredError ∧
      t.stats = s.counted [.addressed, .invalid, .err, .seen] ∧ s.NotAsked t

/-- R154: an unrecognized function code answers "illegal function"; `stat_invalid` is not incremented and no callback is
issued. -/
def Obligations.UnrecognizedIsIllegalFunction : Prop :=
  ∀ (s : State) (f b2 b3 b4 b5 : Byte), s.Inv → s.HasRequest s.cfg.address f b2 b3 b4 b5 →
    ∃ t, exec (.unrecognized f) s = .next t ∧ s.Answered t [s.cfg.address, f ||| 0x80, 0x01] .answeredError ∧
      t.stats = s.counted [.addressed, .err, .seen] ∧ s.NotAsked t

/-- R150: sub-function 0 echoes the sub-function and data fields unchanged, without a callback. -/
def Obligations.DiagEchoEchoes : Prop :=
  ∀ (s : State) (f b2 b3 b4 b5 : Byte), s.Inv → s.HasRequest s.cfg.address f b2 b3 b4 b5 →
    ∃ t, exec .diagEcho s = .next t ∧ s.Answered t [s.cfg.address, f, b2, b3, b4, b5] .ok ∧
      t.stats = s.counted [.addressed, .ok, .seen] ∧ s.NotAsked t

/-- R151: a statistics read answers the low 16 bits of the counter as it stands after this frame's `stat_addressed` and
before its `stat_ok` and `stat_seen`, big-endian, after the echoed sub-function. -/
def Obligations.DiagStatReadsTheCounter : Prop :=
  ∀ p ∈ statRows, ∀ (s : State) (f b2 b3 b4 b5 : Byte), s.Inv → s.HasRequest s.cfg.address f b2 b3 b4 b5 →
    ∃ t v, exec p.1 s = .next t ∧ v = BitVec.ofNat 16 ((s.counted [.addressed]).get p.2) ∧
      s.Answered t [s.cfg.address, f, b2, b3, hiByte v, loByte v] .ok ∧
      t.stats = s.counted [.addressed, .ok, .seen] ∧ s.NotAsked t

/-- R152: a caller-defined sub-function answers the callback's value. -/
def Obligations.DiagUserAnswersTheValue : Prop :=
  ∀ (s : State) (f b2 b3 b4 b5 : Byte), s.Inv → s.HasRequest s.cfg.address f b2 b3 b4 b5 → s.nextAnswer.ex = 0x00 →
    ∃ t, exec (.diagUser (beWord b2 b3)) s = .next t ∧
      s.Answered t [s.cfg.address, f, b2, b3, hiByte s.nextAnswer.val, loByte s.nextAnswer.val] .ok ∧
      t.stats = s.counted [.addressed, .ok, .seen] ∧
      s.Asked t ⟨.diag, beWord b2 b3, beWord b4 b5, []⟩

/-- R152: a caller-defined sub-function whose callback answers an exception answers it. -/
def Obligations.DiagUserAnswersTheException : Prop :=
  ∀ (s : State) (f b2 b3 b4 b5 : Byte), s.Inv → s.HasRequest s.cfg.address f b2 b3 b4 b5 → s.nextAnswer.ex ≠ 0x00 →
    ∃ t, exec (.diagUser (beWord b2 b3)) s = .next t ∧
      s.Answered t [s.cfg.address, f ||| 0x80, s.nextAnswer.ex] .answeredError ∧
      t.stats = s.counted [.addressed, .err, .seen] ∧
      s.Asked t ⟨.diag, beWord b2 b3, beWord b4 b5, []⟩

/-- R148, R173, R155, R131: a broadcast write-multiple-registers invokes the write callback as a unicast one does and sends
nothing, whatever the answer; unbound, it counts an invalid frame and sends nothing. The result is the handler's
outcome. -/
def Obligations.BroadcastWriteSendsNothing : Prop :=
  ∀ (s : State) (b2 b3 b4 b5 : Byte) (data : List Byte), s.Inv → s.HasRequest 0x00 s.cfg.fc.wmr b2 b3 b4 b5 →
    s.cfg.address ≠ 0x00 → s.rxBuf.readRange 6 (s.rxLen - 8) = some data →
    (s.cfg.cbBound.bound .wmr = true →
      ∃ t, exec .writeMultipleRegisters s = .next t ∧
        s.Suppressed t (if s.nextAnswer.ex = 0x00 then .ok else .answeredError) 6 ∧
        t.stats = s.counted [.seen] ∧ s.Asked t ⟨.wmr, beWord b2 b3, beWord b4 b5, data⟩) ∧
    (s.cfg.cbBound.bound .wmr = false →
      ∃ t, exec .writeMultipleRegisters s = .next t ∧ s.Suppressed t .answeredError 6 ∧
        t.stats = s.counted [.invalid, .seen] ∧ s.NotAsked t)

/-- R175: a unicast response carries either a success payload or an error payload: with `ANSWERED_ERROR` it is the 5-byte
error frame with bit 7 of the function byte set; with `OK` the function byte is the request's. -/
def Obligations.ResponseIsSuccessOrErrorFrame : Prop :=
  ∀ (i : Instr) (s t : State) (f b2 b3 b4 b5 : Byte), runsProcess i = true → s.Inv →
    s.HasRequest s.cfg.address f b2 b3 b4 b5 → exec i s = .next t →
    (t.outputs.head? = some ⟨.answeredError, 0x00⟩ ∧ t.txLen = 5 ∧
      ∃ e, t.txBuf.readRange 0 3 = some [s.cfg.address, f ||| 0x80, e]) ∨
    (t.outputs.head? = some ⟨.ok, 0x00⟩ ∧ t.txBuf.readRange 0 2 = some [s.cfg.address, f])

/-- R170, R220: raising a protocol exception writes the function byte with bit 7 set and the code, ends the handler with
`(ANSWERED_ERROR, 3)`, and changes nothing else. -/
def Obligations.ExceptionEntryWritesTwoBytes : Prop :=
  ∀ (s : State) (e f : Byte), s.Inv → s.rxBuf.read 1 = some f → 1 < s.cfg.rxCap →
    ∃ r, raiseException e s = .ok r ∧ r.outcome = .answeredError ∧ r.len = 3 ∧
      r.state = { s with txBuf := r.state.txBuf } ∧
      r.state.txBuf.read 1 = some (f ||| 0x80) ∧ r.state.txBuf.read 2 = some e ∧
      ∀ k, k ≠ 1 → k ≠ 2 → r.state.txBuf.read k = s.txBuf.read k

/-! ## Callbacks -/

/-- R156, R28: a command issues at most one callback request, only a PROCESS issues one, and never one of an unbound
kind. -/
def Obligations.AtMostOneCallback : Prop :=
  ∀ (i : Instr) (s t : State), i.wf s.cfg = true → exec i s = .next t →
    s.NotAsked t ∨
    (runsProcess i = true ∧ ∃ q, s.Asked t q ∧ s.cfg.cbBound.bound q.kind = true)

/-- R89: answer fields a kind does not use are ignored, and all others when `ca_ex` is not 0: another answer that differs
in those alone leaves the same state. -/
def Obligations.UnusedAnswerFieldsAreIgnored : Prop :=
  ∀ (i : Instr) (s t : State) (x y : Answer) (xs : List Answer) (q : CbRequest),
    exec i { s with answers := x :: xs } = .next t → t.requests = q :: s.requests → answersAgree q.kind x y →
    exec i { s with answers := y :: xs } = .next t

/-- R57, R21: bytes of `rx_buf` at and above the frame length are never read: a PROCESS does the same whatever they are. -/
def Obligations.StaleBytesAreNeverRead : Prop :=
  ∀ (i : Instr) (s t : State) (m : Memory), runsProcess i = true →
    (∀ a, a < s.rxLen → m.read a = s.rxBuf.read a) → exec i s = .next t →
    exec i { s with rxBuf := m } = .next { t with rxBuf := m }

/-! ## Statistics -/

/-- R130: `stat_seen` is incremented exactly once by every PROCESS that passed the null guard, and by nothing else. -/
def Obligations.SeenCountsEveryProcess : Prop :=
  ∀ (i : Instr) (s t : State), exec i s = .next t →
    t.stats.get .seen =
      if runsProcess i = true ∧ s.cfg.ctxBound = true ∧ s.cfg.statsEn = true then
        (s.stats.get .seen + 1) % 2 ^ s.cfg.statW
      else s.stats.get .seen

/-- R30, R31: no command decrements or clears a counter: it stays, or is incremented by one modulo `2^STAT_W`. -/
def Obligations.CountersOnlyCountUp : Prop :=
  ∀ (i : Instr) (s t : State) (j : StatIx), exec i s = .next t →
    t.stats.get j = s.stats.get j ∨
    (s.cfg.statsEn = true ∧ t.stats.get j = (s.stats.get j + 1) % 2 ^ s.cfg.statW)

/-- R29: with `STATS_EN = 0` every `stat[i] += 1` is a no-op, and the statistics sub-function range is not recognised. -/
def Obligations.DisabledStatisticsDoNothing : Prop :=
  (∀ (i : Instr) (s t : State), s.cfg.statsEn = false → exec i s = .next t → t.stats = s.stats) ∧
  (∀ (c : Config) (subfn : Word), c.wf = true → c.statsEn = false → subfn ≠ 0 →
    decode c (.request [c.fc.diag, hiByte subfn, loByte subfn]) =
      .ok (if c.cbBound.diag = true then .diagUser subfn else .diagUnbound subfn))

/-! ## What each command may write -/

/-- R21, R23: `rx_buf` and `crc` are written by INGEST alone. -/
def Obligations.OnlyIngestWritesRxBufAndCrc : Prop :=
  ∀ (i : Instr) (s t : State), (∀ b, i ≠ .ingest b) → exec i s = .next t → t.rxBuf = s.rxBuf ∧ t.crc = s.crc

/-- R24, R25, R26, R114, R193: only a PROCESS writes `tx_buf`, `tx_len` and the counters or uses the callback port; INGEST
leaves `tx_rem`, DRAIN leaves `rx_len`, NOP leaves both. -/
def Obligations.OnlyProcessWritesTheResponse : Prop :=
  ∀ (i : Instr) (s t : State), runsProcess i = false → exec i s = .next t →
    t.txBuf = s.txBuf ∧ t.txLen = s.txLen ∧ t.stats = s.stats ∧ s.NotAsked t ∧
    (i ≠ .drain → t.txRem = s.txRem) ∧ ((∀ b, i ≠ .ingest b) → t.rxLen = s.rxLen)

/-- R71, R72: every command returns exactly one `(result, dout)`: a result its row of R72 allows, and `dout = SENTINEL`
unless it is a DRAIN that returned `OK`. -/
def Obligations.EveryCommandReturnsOneResult : Prop :=
  ∀ (i : Instr) (s t : State), exec i s = .next t →
    ∃ o, t.outputs = o :: s.outputs ∧
      (o.dout = 0x00 ∨ (i = .drain ∧ o.result = .ok)) ∧
      o.result ∈ (if runsProcess i = true then
          [Result.ok, .answeredError, .errNull, .errInvalidPacket, .errCrc, .errAddressMismatch, .errBroadcastUnsupported]
        else if i = .nop then [.ok]
        else if i = .drain then [.ok, .msgEnded]
        else [.ok, .errRxOverflow])

/-! ## Reset -/

/-- R38, R230: the state after reset of an instance with any parameters. -/
def Obligations.ResetLeavesTheResetValues : Prop :=
  ∀ c : Config, (State.resetOf c).rxLen = 0 ∧ (State.resetOf c).crc = 0xFFFF ∧ (State.resetOf c).txLen = 0 ∧
    (State.resetOf c).txRem = 0 ∧ (∀ i, (State.resetOf c).stats.get i = 0) ∧ (State.resetOf c).cfg = c ∧
    ∀ a, (State.resetOf c).rxBuf.read a = none ∧ (State.resetOf c).txBuf.read a = none

/-- The state after reset meets the invariant, for every accepted configuration, that of `State.reset` among them (log
entry 1). -/
def Obligations.ResetMeetsTheInvariant : Prop :=
  (∀ c : Config, c.wf = true → (State.resetOf c).Inv) ∧ State.reset.Inv

/-- R230, R231: the reset event, at any time between commands, gives the reset values and keeps the parameters; what the
ports hold stays (log entry 23). -/
def Obligations.ResetEventResets : Prop :=
  ∀ (s : State) (es : List PortEvent), s.cfg.wf = true → s.pending = .reset :: es →
    step s = .next { State.resetOf s.cfg with
      pending := es, answers := s.answers, outputs := s.outputs, requests := s.requests }

/-- R231: after reset the first DRAIN returns `(SENTINEL, MSG_ENDED)`, a first PROCESS returns `ERR_INVALID_PACKET` (or
`ERR_NULL`), and the first INGEST stores at offset 0 and reseeds `crc`. -/
def Obligations.FirstCommandsAfterReset : Prop :=
  ∀ c : Config, c.wf = true →
    (∃ t, exec .drain (State.resetOf c) = .next t ∧ t.outputs = [⟨.msgEnded, 0x00⟩]) ∧
    (∃ t, exec .process (State.resetOf c) = .next t ∧
      t.outputs = [⟨if c.ctxBound = true then .errInvalidPacket else .errNull, 0x00⟩]) ∧
    (∀ b, ∃ t, exec (.ingest b) (State.resetOf c) = .next t ∧ t.rxBuf.read 0 = some b ∧ t.crc = crc16 [b])

/-! ## The step -/

/-- R5, R70, R71: a step runs the instruction that the oldest pending command decodes to, on the state with that command
taken from the port. -/
def Obligations.StepRunsThePresentedCommand : Prop :=
  ∀ (s : State) (cmd : BitVec 2) (din : Byte) (es : List PortEvent) (i : Instr), s.cfg.wf = true →
    s.pending = .command cmd din :: es → decode s.cfg (.command cmd din) = .ok i →
    step s = exec i { s with pending := es }

/-- The model's choice (log entry 4, from R71 and R93): a step of an idle port is a NOP. -/
def Obligations.IdleStepIsNop : Prop :=
  ∀ s : State, s.cfg.wf = true → s.pending = [] → step s = exec .nop s

/-- The model's choice (log entry 18): the step refuses a configuration that breaks a constraint of R6, R8 or R9, and only
such a one. R6, U12 and U15 say "refuse" of the capacities and of `STAT_BASE`; of `STAT_W` (R8) and of the function codes
(R9) the spec gives the constraint alone. -/
def Obligations.BadConfigurationIsRefused : Prop :=
  ∀ s : State, (step s = .refused .badConfig ↔
    ¬(1 ≤ s.cfg.rxCap ∧ s.cfg.rxCap ≤ 65535 ∧ 8 ≤ s.cfg.txCap ∧ s.cfg.txCap ≤ 65535 ∧
      s.cfg.statBase.toNat ≤ 0xFFFB ∧ 16 ≤ s.cfg.statW ∧ s.cfg.fc.all.Nodup))

/-- R231, R27: no step changes a parameter. -/
def Obligations.ParametersNeverChange : Prop :=
  ∀ s t : State, step s = .next t → t.cfg = s.cfg

/-- R35, R65, R31, R88: every step keeps the invariant. -/
def Obligations.StepKeepsTheInvariant : Prop :=
  ∀ s t : State, s.Inv → step s = .next t → t.Inv

/-- R249, R65: from every state that meets the invariant, whatever the ports hold, the step has a next state: no access
leaves a buffer or reads a byte without a value, and nothing is refused. -/
def Obligations.StepNeverStops : Prop :=
  ∀ s : State, s.Inv → ∃ t, step s = .next t

/-! ## The numbers of the callback port -/

/-- R89, R145, R152: the seven callback kinds by number, and each row's request carries the number of its own kind; of a
write row, `cb_dlen` is `max(n - 8, 0)`; of a diagnostic, `cb_a` is the sub-function. -/
def Obligations.RequestsCarryTheirKindNumber : Prop :=
  [CbKind.rc, .ri, .rh, .wmc, .wsr, .wmr, .diag].map CbKind.code = [0, 1, 2, 3, 4, 5, 6] ∧
  (∀ x ∈ [(Instr.readCoils, (0 : BitVec 3)), (.readInputs, 1), (.readHoldingRegisters, 2)],
    ∀ (s t : State) (q : CbRequest), exec x.1 s = .next t → t.requests = q :: s.requests → q.kindCode = x.2) ∧
  (∀ x ∈ [(Instr.writeMultipleCoils, (3 : BitVec 3)), (.writeSingleRegister, 4), (.writeMultipleRegisters, 5)],
    ∀ (s t : State) (q : CbRequest), exec x.1 s = .next t → t.requests = q :: s.requests →
      q.kindCode = x.2 ∧ q.dlen = s.rxLen - 8) ∧
  (∀ (subfn : Word) (s t : State) (q : CbRequest), exec (.diagUser subfn) s = .next t → t.requests = q :: s.requests →
    q.kindCode = 6 ∧ q.a = subfn)

/-! ## Function codes with bit 7 set -/

/-- R86, R175: where the seven configured codes are below 0x80, as the defaults are, a request whose function code has bit 7
set is unrecognized: it gets the error frame, whose function byte is the request's own. The premise is where the model's
choice stands (log entry 24): R9 does not ask it of the codes. -/
def Obligations.UpperHalfCodesAreIllegalFunction : Prop :=
  ∀ (s : State) (f b2 b3 b4 b5 : Byte), s.Inv → (∀ c ∈ s.cfg.fc.all, c.toNat < 0x80) → 0x80 ≤ f.toNat →
    s.HasRequest s.cfg.address f b2 b3 b4 b5 →
    ∃ t, exec .process s = .next t ∧ s.Answered t [s.cfg.address, f, 0x01] .answeredError ∧
      t.stats = s.counted [.addressed, .err, .seen] ∧ s.NotAsked t
end

