-- ==== Sys2Proof/Laws/Crc.lean ====
section
/-! SUPPORT. Small laws of the CRC engine. -/

namespace Sys2Proof.Machine

@[simp] theorem crcAddBy_bitwise (b : Byte) (c : Word) : crcAddBy .bitwise b c = crc16Add b c := rfl

@[simp] theorem crcAddBy_table (b : Byte) (c : Word) : crcAddBy .table b c = crc16AddTable b c := rfl

@[simp] theorem crc16By_bitwise (bs : List Byte) : crc16By .bitwise bs = crc16 bs := rfl

@[simp] theorem crc16_nil : crc16 [] = crcInit := rfl

/-- One more byte at the end (R102). -/
theorem crc16_append_one (bs : List Byte) (b : Byte) : crc16 (bs ++ [b]) = crc16Add b (crc16 bs) := by
  simp [crc16]

theorem crc16By_append_one (st : CrcStrategy) (bs : List Byte) (b : Byte) :
    crc16By st (bs ++ [b]) = crcAddBy st b (crc16By st bs) := by
  simp [crc16By]

@[simp] theorem crcBytes_length (c : Word) : (crcBytes c).length = 2 := rfl

/-- Only the exclusive-or of byte and state matters (R100, corner cases). -/
theorem crc16Add_eq_zero_byte (b : Byte) (c : Word) : crc16Add b c = crc16Add 0 (c ^^^ b.setWidth 16) := by
  simp [crc16Add]

end Sys2Proof.Machine
end

