-- ==== Sys2Proof/Laws/Memory.lean ====
section
/-! SUPPORT. The laws of one address space: read after write, the canonical form, ranges. -/

namespace Sys2Proof.Machine.Memory

@[simp] theorem read_nil (a : Nat) : Memory.read [] a = none := rfl

theorem read_write_same (m : Memory) (a : Nat) (b : Byte) : (m.write a b).read a = some b := by
  induction m with
  | nil => simp [Memory.write, Memory.read]
  | cons x m ih =>
    simp only [Memory.write]
    split
    · simp [Memory.read]
    · split
      · simp [Memory.read]
      · next h => simp [Memory.read, h, ih]

theorem read_write_other (m : Memory) {a a' : Nat} (b : Byte) (h : a' ≠ a) :
    (m.write a b).read a' = m.read a' := by
  induction m with
  | nil => simp [Memory.write, Memory.read, h.symm]
  | cons x m ih =>
    simp only [Memory.write]
    split
    · simp [Memory.read, h.symm]
    · split
      · next hx => subst hx; simp [Memory.read, h.symm]
      · simp [Memory.read, ih]

/-- Every read after a write (R56, R60). -/
theorem read_write (m : Memory) (a a' : Nat) (b : Byte) :
    (m.write a b).read a' = if a' = a then some b else m.read a' := by
  split
  · next h => rw [h]; exact m.read_write_same a b
  · next h => exact m.read_write_other b h

/-- The first offset of a written memory is that of the memory, or the offset written. -/
theorem wf_cons_write (x : Host.Cell) (m : Memory) (a : Nat) (b : Byte) (hx : x.1 < a)
    (h : Memory.wf (x :: m) = true) (hw : Memory.wf (m.write a b) = true) :
    Memory.wf (x :: m.write a b) = true := by
  cases m with
  | nil => simpa [Memory.write, Memory.wf] using hx
  | cons y m =>
    simp only [Memory.wf, Bool.and_eq_true, decide_eq_true_eq] at h
    simp only [Memory.write] at hw ⊢
    split at hw
    · next ha => simp_all [Memory.wf]
    · split at hw
      · next ha => simp_all [Memory.wf]
      · next hlt hne =>
        simp only [hlt, hne, if_false, Memory.wf, Bool.and_eq_true, decide_eq_true_eq]
        exact ⟨h.1, hw⟩

/-- A write keeps the canonical form. -/
theorem wf_write (m : Memory) (a : Nat) (b : Byte) (h : m.wf = true) : (m.write a b).wf = true := by
  induction m with
  | nil => rfl
  | cons x m ih =>
    have hm : Memory.wf m = true := by
      cases m with
      | nil => rfl
      | cons y m => simp only [Memory.wf, Bool.and_eq_true] at h; exact h.2
    simp only [Memory.write]
    split
    · next ha => simpa [Memory.wf, ha] using h
    · split
      · next hx =>
        subst hx
        cases m with
        | nil => rfl
        | cons y m => simpa [Memory.wf] using h
      · next hlt hne => exact wf_cons_write x m a b (by omega) h (ih hm)

@[simp] theorem within_cons (cap : Nat) (x : Host.Cell) (m : Memory) :
    Memory.within cap (x :: m) = (decide (x.1 < cap) && Memory.within cap m) := rfl

theorem within_write (cap : Nat) (m : Memory) (a : Nat) (b : Byte) (ha : a < cap)
    (h : m.within cap = true) : (m.write a b).within cap = true := by
  induction m with
  | nil => simp [Memory.write, ha, Memory.within]
  | cons x m ih =>
    simp only [within_cons, Bool.and_eq_true, decide_eq_true_eq] at h
    simp only [Memory.write]
    split
    · simp only [within_cons, ha, h.1, h.2, decide_true, Bool.and_self]
    · split
      · simp only [within_cons, ha, h.2, decide_true, Bool.and_self]
      · simp only [within_cons, h.1, ih h.2, decide_true, Bool.and_self]

/-- Equal reads on a range give equal ranges. -/
theorem readRange_congr {m m' : Memory} {a n : Nat}
    (h : ∀ k, a ≤ k → k < a + n → m'.read k = m.read k) : m'.readRange a n = m.readRange a n := by
  induction n generalizing a with
  | zero => rfl
  | succ n ih =>
    simp only [Memory.readRange]
    rw [h a (by omega) (by omega), ih (fun k h1 h2 => h k (by omega) (by omega))]

theorem readRange_length {m : Memory} {a n : Nat} {bs : List Byte} (h : m.readRange a n = some bs) :
    bs.length = n := by
  induction n generalizing a bs with
  | zero => simp [Memory.readRange] at h; simp [← h]
  | succ n ih =>
    simp only [Memory.readRange] at h
    split at h
    · next hr => cases h; simp [ih hr]
    · cases h

/-- One byte of a range. -/
theorem read_of_readRange {m : Memory} {a n : Nat} {bs : List Byte} (h : m.readRange a n = some bs)
    (k : Nat) (hk : k < n) : m.read (a + k) = bs[k]? := by
  induction n generalizing a bs k with
  | zero => omega
  | succ n ih =>
    simp only [Memory.readRange] at h
    split at h
    · next hb hr =>
      cases h
      cases k with
      | zero => simpa using hb
      | succ k =>
        have := ih hr k (by omega)
        simpa [Nat.add_assoc, Nat.add_comm 1] using this
    · cases h

/-- A range read as two. -/
theorem readRange_add (m : Memory) (a n k : Nat) :
    m.readRange a (n + k) =
      match m.readRange a n, m.readRange (a + n) k with
      | some bs, some cs => some (bs ++ cs)
      | _, _ => none := by
  induction n generalizing a with
  | zero => simp [Memory.readRange]; cases m.readRange a k <;> rfl
  | succ n ih =>
    rw [show n + 1 + k = (n + k) + 1 by omega]
    simp only [Memory.readRange]
    rw [ih (a + 1), show a + 1 + n = a + (n + 1) by omega]
    cases m.read a <;> cases m.readRange (a + 1) n <;> cases m.readRange (a + (n + 1)) k <;> rfl

theorem readRange_one_more (m : Memory) (a n : Nat) {bs : List Byte} {b : Byte}
    (h : m.readRange a n = some bs) (hb : m.read (a + n) = some b) :
    m.readRange a (n + 1) = some (bs ++ [b]) := by
  rw [readRange_add, h]; simp [Memory.readRange, hb]

/-- A range without gaps within one that has none. -/
theorem readRange_sub {m : Memory} {n : Nat} {bs : List Byte} (h : m.readRange 0 n = some bs)
    (a k : Nat) (hk : a + k ≤ n) : m.readRange a k = some ((bs.drop a).take k) := by
  induction k generalizing a with
  | zero => simp [Memory.readRange]
  | succ k ih =>
    have hlen := readRange_length h
    have h1 := read_of_readRange h a (by omega)
    simp only [Nat.zero_add] at h1
    have ha : a < bs.length := by omega
    simp only [Memory.readRange, h1, ih (a + 1) (by omega), List.getElem?_eq_getElem ha]
    rw [List.drop_eq_getElem_cons ha, List.take_succ_cons]

@[simp] theorem writes_nil (m : Memory) (a : Nat) : m.writes a [] = m := rfl

@[simp] theorem writes_cons (m : Memory) (a : Nat) (b : Byte) (bs : List Byte) :
    m.writes a (b :: bs) = (m.write a b).writes (a + 1) bs := rfl

theorem read_writes_other (m : Memory) (a : Nat) (bs : List Byte) (k : Nat)
    (h : k < a ∨ a + bs.length ≤ k) : (m.writes a bs).read k = m.read k := by
  induction bs generalizing m a with
  | nil => rfl
  | cons b bs ih =>
    simp only [List.length_cons] at h
    rw [writes_cons, ih _ _ (by omega), read_write_other _ _ (by omega)]

/-- The range read back after it was written. -/
theorem readRange_writes (m : Memory) (a : Nat) (bs : List Byte) :
    (m.writes a bs).readRange a bs.length = some bs := by
  induction bs generalizing m a with
  | nil => rfl
  | cons b bs ih =>
    simp only [List.length_cons, Memory.readRange, writes_cons]
    rw [read_writes_other _ _ _ _ (Or.inl (by omega)), read_write_same, ih]

/-- A range that ends where the written bytes begin is kept, and the written bytes follow it. -/
theorem readRange_append_writes {m : Memory} {n : Nat} {bs : List Byte} (cs : List Byte)
    (h : m.readRange 0 n = some bs) :
    (m.writes n cs).readRange 0 (n + cs.length) = some (bs ++ cs) := by
  rw [readRange_add, Nat.zero_add, readRange_writes,
    readRange_congr (m := m) (fun k _ hk => read_writes_other m n cs k (Or.inl (by omega))), h]

theorem wf_writes (m : Memory) (a : Nat) (bs : List Byte) (h : m.wf = true) : (m.writes a bs).wf = true := by
  induction bs generalizing m a with
  | nil => exact h
  | cons b bs ih => exact ih _ _ (wf_write m a b h)

theorem within_writes (cap : Nat) (m : Memory) (a : Nat) (bs : List Byte) (ha : a + bs.length ≤ cap)
    (h : m.within cap = true) : (m.writes a bs).within cap = true := by
  induction bs generalizing m a with
  | nil => exact h
  | cons b bs ih =>
    simp only [List.length_cons] at ha
    exact ih _ _ (by omega) (within_write cap m a b (by omega) h)

end Sys2Proof.Machine.Memory
end

