-- ==== Sys2Proof/Laws/State.lean ====
section
/-! SUPPORT. One lemma per field per update of State, true by rfl; the counters. -/

namespace Sys2Proof.Machine.State

@[simp] theorem ret_cfg (s : State) (r : Result) : (s.ret r).cfg = s.cfg := rfl
@[simp] theorem ret_rxBuf (s : State) (r : Result) : (s.ret r).rxBuf = s.rxBuf := rfl
@[simp] theorem ret_rxLen (s : State) (r : Result) : (s.ret r).rxLen = s.rxLen := rfl
@[simp] theorem ret_crc (s : State) (r : Result) : (s.ret r).crc = s.crc := rfl
@[simp] theorem ret_txBuf (s : State) (r : Result) : (s.ret r).txBuf = s.txBuf := rfl
@[simp] theorem ret_txLen (s : State) (r : Result) : (s.ret r).txLen = s.txLen := rfl
@[simp] theorem ret_txRem (s : State) (r : Result) : (s.ret r).txRem = s.txRem := rfl
@[simp] theorem ret_stats (s : State) (r : Result) : (s.ret r).stats = s.stats := rfl
@[simp] theorem ret_pending (s : State) (r : Result) : (s.ret r).pending = s.pending := rfl
@[simp] theorem ret_answers (s : State) (r : Result) : (s.ret r).answers = s.answers := rfl
@[simp] theorem ret_outputs (s : State) (r : Result) : (s.ret r).outputs = ⟨r, sentinel⟩ :: s.outputs := rfl
@[simp] theorem ret_requests (s : State) (r : Result) : (s.ret r).requests = s.requests := rfl

@[simp] theorem retByte_cfg (s : State) (b : Byte) : (s.retByte b).cfg = s.cfg := rfl
@[simp] theorem retByte_rxBuf (s : State) (b : Byte) : (s.retByte b).rxBuf = s.rxBuf := rfl
@[simp] theorem retByte_rxLen (s : State) (b : Byte) : (s.retByte b).rxLen = s.rxLen := rfl
@[simp] theorem retByte_crc (s : State) (b : Byte) : (s.retByte b).crc = s.crc := rfl
@[simp] theorem retByte_txBuf (s : State) (b : Byte) : (s.retByte b).txBuf = s.txBuf := rfl
@[simp] theorem retByte_txLen (s : State) (b : Byte) : (s.retByte b).txLen = s.txLen := rfl
@[simp] theorem retByte_txRem (s : State) (b : Byte) : (s.retByte b).txRem = s.txRem := rfl
@[simp] theorem retByte_stats (s : State) (b : Byte) : (s.retByte b).stats = s.stats := rfl
@[simp] theorem retByte_pending (s : State) (b : Byte) : (s.retByte b).pending = s.pending := rfl
@[simp] theorem retByte_answers (s : State) (b : Byte) : (s.retByte b).answers = s.answers := rfl
@[simp] theorem retByte_outputs (s : State) (b : Byte) : (s.retByte b).outputs = ⟨.ok, b⟩ :: s.outputs := rfl
@[simp] theorem retByte_requests (s : State) (b : Byte) : (s.retByte b).requests = s.requests := rfl

@[simp] theorem count_cfg (s : State) (i : StatIx) : (s.count i).cfg = s.cfg := rfl
@[simp] theorem count_rxBuf (s : State) (i : StatIx) : (s.count i).rxBuf = s.rxBuf := rfl
@[simp] theorem count_rxLen (s : State) (i : StatIx) : (s.count i).rxLen = s.rxLen := rfl
@[simp] theorem count_crc (s : State) (i : StatIx) : (s.count i).crc = s.crc := rfl
@[simp] theorem count_txBuf (s : State) (i : StatIx) : (s.count i).txBuf = s.txBuf := rfl
@[simp] theorem count_txLen (s : State) (i : StatIx) : (s.count i).txLen = s.txLen := rfl
@[simp] theorem count_txRem (s : State) (i : StatIx) : (s.count i).txRem = s.txRem := rfl
@[simp] theorem count_stats (s : State) (i : StatIx) : (s.count i).stats = s.stats.count s.cfg i := rfl
@[simp] theorem count_pending (s : State) (i : StatIx) : (s.count i).pending = s.pending := rfl
@[simp] theorem count_answers (s : State) (i : StatIx) : (s.count i).answers = s.answers := rfl
@[simp] theorem count_outputs (s : State) (i : StatIx) : (s.count i).outputs = s.outputs := rfl
@[simp] theorem count_requests (s : State) (i : StatIx) : (s.count i).requests = s.requests := rfl

@[simp] theorem callback_cfg (s : State) (q : CbRequest) : (s.callback q).cfg = s.cfg := rfl
@[simp] theorem callback_rxBuf (s : State) (q : CbRequest) : (s.callback q).rxBuf = s.rxBuf := rfl
@[simp] theorem callback_rxLen (s : State) (q : CbRequest) : (s.callback q).rxLen = s.rxLen := rfl
@[simp] theorem callback_crc (s : State) (q : CbRequest) : (s.callback q).crc = s.crc := rfl
@[simp] theorem callback_txBuf (s : State) (q : CbRequest) : (s.callback q).txBuf = s.txBuf := rfl
@[simp] theorem callback_txLen (s : State) (q : CbRequest) : (s.callback q).txLen = s.txLen := rfl
@[simp] theorem callback_txRem (s : State) (q : CbRequest) : (s.callback q).txRem = s.txRem := rfl
@[simp] theorem callback_stats (s : State) (q : CbRequest) : (s.callback q).stats = s.stats := rfl
@[simp] theorem callback_pending (s : State) (q : CbRequest) : (s.callback q).pending = s.pending := rfl
@[simp] theorem callback_answers (s : State) (q : CbRequest) : (s.callback q).answers = s.answers.tail := rfl
@[simp] theorem callback_outputs (s : State) (q : CbRequest) : (s.callback q).outputs = s.outputs := rfl
@[simp] theorem callback_requests (s : State) (q : CbRequest) : (s.callback q).requests = q :: s.requests := rfl

@[simp] theorem consumeFrame_cfg (s : State) : s.consumeFrame.cfg = s.cfg := rfl
@[simp] theorem consumeFrame_rxBuf (s : State) : s.consumeFrame.rxBuf = s.rxBuf := rfl
@[simp] theorem consumeFrame_rxLen (s : State) : s.consumeFrame.rxLen = 0 := rfl
@[simp] theorem consumeFrame_crc (s : State) : s.consumeFrame.crc = s.crc := rfl
@[simp] theorem consumeFrame_txBuf (s : State) : s.consumeFrame.txBuf = s.txBuf := rfl
@[simp] theorem consumeFrame_txLen (s : State) : s.consumeFrame.txLen = s.txLen := rfl
@[simp] theorem consumeFrame_txRem (s : State) : s.consumeFrame.txRem = s.txRem := rfl
@[simp] theorem consumeFrame_stats (s : State) : s.consumeFrame.stats = s.stats := rfl
@[simp] theorem consumeFrame_pending (s : State) : s.consumeFrame.pending = s.pending := rfl
@[simp] theorem consumeFrame_answers (s : State) : s.consumeFrame.answers = s.answers := rfl
@[simp] theorem consumeFrame_outputs (s : State) : s.consumeFrame.outputs = s.outputs := rfl
@[simp] theorem consumeFrame_requests (s : State) : s.consumeFrame.requests = s.requests := rfl

@[simp] theorem clearResponse_cfg (s : State) : s.clearResponse.cfg = s.cfg := rfl
@[simp] theorem clearResponse_rxBuf (s : State) : s.clearResponse.rxBuf = s.rxBuf := rfl
@[simp] theorem clearResponse_rxLen (s : State) : s.clearResponse.rxLen = s.rxLen := rfl
@[simp] theorem clearResponse_crc (s : State) : s.clearResponse.crc = s.crc := rfl
@[simp] theorem clearResponse_txBuf (s : State) : s.clearResponse.txBuf = s.txBuf := rfl
@[simp] theorem clearResponse_txLen (s : State) : s.clearResponse.txLen = 0 := rfl
@[simp] theorem clearResponse_txRem (s : State) : s.clearResponse.txRem = 0 := rfl
@[simp] theorem clearResponse_stats (s : State) : s.clearResponse.stats = s.stats := rfl
@[simp] theorem clearResponse_pending (s : State) : s.clearResponse.pending = s.pending := rfl
@[simp] theorem clearResponse_answers (s : State) : s.clearResponse.answers = s.answers := rfl
@[simp] theorem clearResponse_outputs (s : State) : s.clearResponse.outputs = s.outputs := rfl
@[simp] theorem clearResponse_requests (s : State) : s.clearResponse.requests = s.requests := rfl

@[simp] theorem applyReset_cfg (s : State) : s.applyReset.cfg = s.cfg := rfl
@[simp] theorem applyReset_rxBuf (s : State) : s.applyReset.rxBuf = [] := rfl
@[simp] theorem applyReset_rxLen (s : State) : s.applyReset.rxLen = 0 := rfl
@[simp] theorem applyReset_crc (s : State) : s.applyReset.crc = 0xFFFF := rfl
@[simp] theorem applyReset_txBuf (s : State) : s.applyReset.txBuf = [] := rfl
@[simp] theorem applyReset_txLen (s : State) : s.applyReset.txLen = 0 := rfl
@[simp] theorem applyReset_txRem (s : State) : s.applyReset.txRem = 0 := rfl
@[simp] theorem applyReset_stats (s : State) : s.applyReset.stats = Stats.zero := rfl
@[simp] theorem applyReset_pending (s : State) : s.applyReset.pending = s.pending := rfl
@[simp] theorem applyReset_answers (s : State) : s.applyReset.answers = s.answers := rfl
@[simp] theorem applyReset_outputs (s : State) : s.applyReset.outputs = s.outputs := rfl
@[simp] theorem applyReset_requests (s : State) : s.applyReset.requests = s.requests := rfl

end Sys2Proof.Machine.State

namespace Sys2Proof.Machine.Stats

theorem get_set (t : Stats) (i j : StatIx) (v : Nat) : (t.set i v).get j = if j = i then v else t.get j := by
  cases i <;> cases j <;> rfl

/-- What `stat[i] += 1` does to every counter (R29, R31). -/
theorem get_count (c : Config) (t : Stats) (i j : StatIx) :
    (t.count c i).get j = if c.statsEn = true ∧ j = i then (t.get i + 1) % 2 ^ c.statW else t.get j := by
  unfold Stats.count
  split
  · next h => simp [get_set, h]
  · next h => simp [h]

theorem count_off (c : Config) (t : Stats) (i : StatIx) (h : c.statsEn = false) : t.count c i = t := by
  simp [Stats.count, h]

theorem get_count_lt (c : Config) (t : Stats) (i : StatIx) (h : ∀ j, t.get j < 2 ^ c.statW) (j : StatIx) :
    (t.count c i).get j < 2 ^ c.statW := by
  rw [get_count]
  split
  · exact Nat.mod_lt _ (Nat.two_pow_pos _)
  · exact h j

end Sys2Proof.Machine.Stats
end

