-- ==== Sys2Proof/Laws/Ops.lean ====
section
/-! SUPPORT. One specification lemma per shared operation: when it succeeds and with what. -/

namespace Sys2Proof.Machine

/-- Peeling a computation that may fault. -/
theorem bind_eq_ok {ε α β : Type} {x : Except ε α} {f : α → Except ε β} {r : β} :
    (x >>= f) = .ok r ↔ ∃ a, x = .ok a ∧ f a = .ok r := by
  cases x <;> simp [bind, Except.bind]

theorem outcomeOf_eq_next {x : Except Fault State} {t : State} : outcomeOf x = .next t ↔ x = .ok t := by
  cases x <;> simp [outcomeOf]

/-! ## The callback port -/

@[simp] theorem CbRequest.kindCode_mk (k : CbKind) (a b : Word) (d : List Byte) : (CbRequest.mk k a b d).kindCode = k.code :=
  rfl

@[simp] theorem CbRequest.dlen_mk (k : CbKind) (a b : Word) (d : List Byte) : (CbRequest.mk k a b d).dlen = d.length := rfl

/-- The seven kinds have seven numbers (R89). -/
theorem CbKind.code_inj {k l : CbKind} (h : k.code = l.code) : k = l := by
  revert h; cases k <;> cases l <;> decide

namespace State

/-! ## Reading and storing -/

theorem rxByte_eq_ok {s : State} {a : Nat} {b : Byte} :
    s.rxByte a = .ok b ↔ a < s.cfg.rxCap ∧ s.rxBuf.read a = some b := by
  unfold rxByte
  split
  · next h => split <;> simp_all
  · next h => simp [h]

theorem txByte_eq_ok {s : State} {a : Nat} {b : Byte} :
    s.txByte a = .ok b ↔ a < s.cfg.txCap ∧ s.txBuf.read a = some b := by
  unfold txByte
  split
  · next h => split <;> simp_all
  · next h => simp [h]

theorem rxWord_eq_ok {s : State} {a : Nat} {v : Word} :
    s.rxWord a = .ok v ↔ ∃ hi lo, s.rxByte a = .ok hi ∧ s.rxByte (a + 1) = .ok lo ∧ v = beWord hi lo := by
  unfold rxWord
  simp only [bind_eq_ok, pure, Except.pure, Except.ok.injEq]
  constructor
  · rintro ⟨hi, h1, lo, h2, rfl⟩; exact ⟨hi, lo, h1, h2, rfl⟩
  · rintro ⟨hi, lo, h1, h2, rfl⟩; exact ⟨hi, h1, lo, h2, rfl⟩

/-- A range of `rx_buf` whose bytes all have a value, within the capacity, is read. -/
theorem rxBytes_of_readRange {s : State} {a n : Nat} {bs : List Byte} (hcap : a + n ≤ s.cfg.rxCap)
    (h : s.rxBuf.readRange a n = some bs) : s.rxBytes a n = .ok bs := by
  induction n generalizing a bs with
  | zero => simp [Memory.readRange] at h; simp [rxBytes, pure, Except.pure, h]
  | succ n ih =>
    simp only [Memory.readRange] at h
    split at h
    · next b cs hb hcs =>
      cases h
      unfold rxBytes
      refine bind_eq_ok.mpr ⟨b, rxByte_eq_ok.mpr ⟨by omega, hb⟩, ?_⟩
      exact bind_eq_ok.mpr ⟨cs, ih (by omega) hcs, rfl⟩
    · cases h

theorem readRange_of_rxBytes {s : State} {a n : Nat} {bs : List Byte} (h : s.rxBytes a n = .ok bs) :
    s.rxBuf.readRange a n = some bs := by
  induction n generalizing a bs with
  | zero => simpa [rxBytes, pure, Except.pure, Memory.readRange] using h
  | succ n ih =>
    unfold rxBytes at h
    obtain ⟨b, hb, h⟩ := bind_eq_ok.mp h
    obtain ⟨cs, hcs, h⟩ := bind_eq_ok.mp h
    cases h
    simp [Memory.readRange, (rxByte_eq_ok.mp hb).2, ih hcs]

theorem txBytes_of_readRange {s : State} {a n : Nat} {bs : List Byte} (hcap : a + n ≤ s.cfg.txCap)
    (h : s.txBuf.readRange a n = some bs) : s.txBytes a n = .ok bs := by
  induction n generalizing a bs with
  | zero => simp [Memory.readRange] at h; simp [txBytes, pure, Except.pure, h]
  | succ n ih =>
    simp only [Memory.readRange] at h
    split at h
    · next b cs hb hcs =>
      cases h
      unfold txBytes
      refine bind_eq_ok.mpr ⟨b, txByte_eq_ok.mpr ⟨by omega, hb⟩, ?_⟩
      exact bind_eq_ok.mpr ⟨cs, ih (by omega) hcs, rfl⟩
    · cases h

theorem readRange_of_txBytes {s : State} {a n : Nat} {bs : List Byte} (h : s.txBytes a n = .ok bs) :
    s.txBuf.readRange a n = some bs := by
  induction n generalizing a bs with
  | zero => simpa [txBytes, pure, Except.pure, Memory.readRange] using h
  | succ n ih =>
    unfold txBytes at h
    obtain ⟨b, hb, h⟩ := bind_eq_ok.mp h
    obtain ⟨cs, hcs, h⟩ := bind_eq_ok.mp h
    cases h
    simp [Memory.readRange, (txByte_eq_ok.mp hb).2, ih hcs]

theorem rxStore_eq_ok {s t : State} {a : Nat} {b : Byte} :
    s.rxStore a b = .ok t ↔ a < s.cfg.rxCap ∧ t = { s with rxBuf := s.rxBuf.write a b } := by
  unfold rxStore
  split
  · next h => simp [h, eq_comm]
  · next h => simp [h]

theorem txStore_eq_ok {s t : State} {a : Nat} {b : Byte} :
    s.txStore a b = .ok t ↔ a < s.cfg.txCap ∧ t = { s with txBuf := s.txBuf.write a b } := by
  unfold txStore
  split
  · next h => simp [h, eq_comm]
  · next h => simp [h]

/-- A bulk move that fits writes its bytes and nothing else. -/
theorem txStores_of_fits {s : State} {a : Nat} {bs : List Byte} (h : a + bs.length ≤ s.cfg.txCap) :
    s.txStores a bs = .ok { s with txBuf := s.txBuf.writes a bs } := by
  induction bs generalizing s a with
  | nil => rfl
  | cons b bs ih =>
    simp only [List.length_cons] at h
    unfold txStores
    refine bind_eq_ok.mpr ⟨_, txStore_eq_ok.mpr ⟨by omega, rfl⟩, ?_⟩
    exact ih (s := { s with txBuf := s.txBuf.write a b }) (by simpa using (by omega : a + 1 + bs.length ≤ s.cfg.txCap))

/-- All a bulk move can do. -/
theorem txStores_eq_ok {s t : State} {a : Nat} {bs : List Byte} (h : s.txStores a bs = .ok t) :
    t = { s with txBuf := s.txBuf.writes a bs } ∧ (bs = [] ∨ a + bs.length ≤ s.cfg.txCap) := by
  induction bs generalizing s a with
  | nil => cases h; exact ⟨rfl, Or.inl rfl⟩
  | cons b bs ih =>
    unfold txStores at h
    obtain ⟨s1, h1, h⟩ := bind_eq_ok.mp h
    obtain ⟨ha, rfl⟩ := txStore_eq_ok.mp h1
    obtain ⟨rfl, hb⟩ := ih h
    refine ⟨rfl, Or.inr ?_⟩
    rcases hb with rfl | hb
    · simpa using ha
    · simp only [List.length_cons]
      simp only at hb
      omega

theorem echo_eq_ok {s t : State} {a n : Nat} (h : s.echo a n = .ok t) :
    ∃ bs, s.rxBuf.readRange a n = some bs ∧ t = { s with txBuf := s.txBuf.writes a bs } := by
  obtain ⟨bs, hbs, h⟩ := bind_eq_ok.mp h
  exact ⟨bs, readRange_of_rxBytes hbs, (txStores_eq_ok h).1⟩

theorem echo_of_readRange {s : State} {a n : Nat} {bs : List Byte} (hr : a + n ≤ s.cfg.rxCap)
    (ht : a + n ≤ s.cfg.txCap) (h : s.rxBuf.readRange a n = some bs) :
    s.echo a n = .ok { s with txBuf := s.txBuf.writes a bs } :=
  bind_eq_ok.mpr ⟨bs, rxBytes_of_readRange hr h,
    txStores_of_fits (by rw [Memory.readRange_length h]; exact ht)⟩

end State

/-! ## Protocol exceptions and Finish -/

/-- All that raising a protocol exception does (R170, R220). -/
theorem raiseException_eq_ok {e : Byte} {s : State} {r : Handled} :
    raiseException e s = .ok r ↔
      ∃ f, s.rxByte 1 = .ok f ∧ 2 < s.cfg.txCap ∧
        r = ⟨{ s with txBuf := s.txBuf.writes 1 [f ||| 0x80, e] }, .answeredError, 3⟩ := by
  unfold raiseException
  simp only [bind_eq_ok, State.txStore_eq_ok, pure, Except.pure, Except.ok.injEq]
  constructor
  · rintro ⟨f, hf, _, ⟨_, rfl⟩, _, ⟨h2, rfl⟩, rfl⟩
    exact ⟨f, hf, h2, rfl⟩
  · rintro ⟨f, hf, h2, rfl⟩
    exact ⟨f, hf, _, ⟨by omega, rfl⟩, _, ⟨h2, rfl⟩, rfl⟩

/-- All that `Finish` of a unicast request does (R172, R174). -/
theorem finishUnicast_eq_ok {h : Handled} {t : State} :
    finishUnicast h = .ok t ↔
      ∃ body, h.state.txBytes 0 h.len = .ok body ∧ h.len + 2 ≤ h.state.cfg.txCap ∧
        t = { h.state with
          txBuf := h.state.txBuf.writes h.len (crcBytes (crc16By h.state.cfg.crcStrategy body))
          txLen := h.len + 2
          txRem := h.len + 2
          stats := h.state.stats.count h.state.cfg h.outcome.counter } := by
  unfold finishUnicast
  simp only [bind_eq_ok, pure, Except.pure, Except.ok.injEq]
  constructor
  · rintro ⟨body, hb, s1, h1, rfl⟩
    obtain ⟨rfl, hc⟩ := State.txStores_eq_ok h1
    refine ⟨body, hb, ?_, rfl⟩
    rcases hc with hc | hc
    · cases hc
    · exact hc
  · rintro ⟨body, hb, hc, rfl⟩
    exact ⟨body, hb, _, State.txStores_of_fits hc, rfl⟩

@[simp] theorem finishBroadcast_eq (h : Handled) :
    finishBroadcast h = .ok { h.state with txLen := 0, txRem := 0 } := rfl

/-! ## The steps of PROCESS -/

/-- Every way an accepted or unaccepted frame of `n` bytes, past the guard, can end (R123 to R131). -/
theorem validate_cases {h : Handler} {n : Nat} {s t : State} (ht : validate h n s = .ok t) :
    (n < 7 ∧ t = ((s.count .invalid).count .seen).ret .errInvalidPacket) ∨
    (7 ≤ n ∧ s.crc ≠ 0 ∧ t = ((s.count .invalid).count .seen).ret .errCrc) ∨
    (7 ≤ n ∧ s.crc = 0 ∧ ∃ a f, s.rxByte 0 = .ok a ∧ s.rxByte 1 = .ok f ∧
      ((resolveAddress s.cfg a f = .unsupported ∧ t = (s.count .seen).ret .errBroadcastUnsupported) ∨
       (resolveAddress s.cfg a f = .mismatch ∧ t = (s.count .seen).ret .errAddressMismatch) ∨
       (resolveAddress s.cfg a f = .unicast ∧ respond h n false a f (s.count .addressed) = .ok t) ∨
       (resolveAddress s.cfg a f = .broadcast ∧ respond h n true a f s = .ok t))) := by
  unfold validate minFrame at ht
  split at ht
  · next hn => cases ht; exact Or.inl ⟨hn, rfl⟩
  · next hn =>
    split at ht
    · next hc => cases ht; exact Or.inr (Or.inl ⟨by omega, hc, rfl⟩)
    · next hc =>
      refine Or.inr (Or.inr ⟨by omega, by simpa using hc, ?_⟩)
      obtain ⟨a, ha, ht⟩ := bind_eq_ok.mp ht
      obtain ⟨f, hf, ht⟩ := bind_eq_ok.mp ht
      refine ⟨a, f, ha, hf, ?_⟩
      split at ht
      · next hr => exact Or.inr (Or.inr (Or.inl ⟨hr, ht⟩))
      · next hr => exact Or.inr (Or.inr (Or.inr ⟨hr, ht⟩))
      · next hr => cases ht; exact Or.inl ⟨hr, rfl⟩
      · next hr => cases ht; exact Or.inr (Or.inl ⟨hr, rfl⟩)

/-- All that answering an accepted frame does (R126 to R131). -/
theorem respond_eq_ok {h : Handler} {n : Nat} {bc : Bool} {a f : Byte} {s t : State} :
    respond h n bc a f s = .ok t ↔
      1 < s.cfg.txCap ∧ ∃ r, h n { s with txBuf := s.txBuf.writes 0 [a, f] } = .ok r ∧
        ∃ u, finish bc r = .ok u ∧ t = (u.count .seen).ret r.outcome.result := by
  unfold respond
  simp only [bind_eq_ok, State.txStore_eq_ok, pure, Except.pure, Except.ok.injEq]
  constructor
  · rintro ⟨_, ⟨_, rfl⟩, _, ⟨h1, rfl⟩, r, hr, u, hu, rfl⟩
    exact ⟨h1, r, hr, u, hu, rfl⟩
  · rintro ⟨h1, r, hr, u, hu, rfl⟩
    exact ⟨_, ⟨by omega, rfl⟩, _, ⟨h1, rfl⟩, r, hr, u, hu, rfl⟩

/-- The guard (R121) and what follows it. -/
theorem processWith_cases {h : Handler} {s t : State} (ht : processWith h s = .ok t) :
    (s.cfg.ctxBound = false ∧ t = s.consumeFrame.ret .errNull) ∨
    (s.cfg.ctxBound = true ∧ validate h s.rxLen s.consumeFrame.clearResponse = .ok t) := by
  unfold processWith at ht
  split at ht
  · next hc => cases ht; exact Or.inl ⟨hc, rfl⟩
  · next hc => exact Or.inr ⟨by simpa using hc, ht⟩

end Sys2Proof.Machine
end

