-- ==== Sys2Proof/Laws/Handlers.lean ====
section
/-! SUPPORT. Everything a function handler can do, said once: it writes a run of `tx_buf` that starts at offset 1 or 2 and
ends at `L`, may count one invalid frame, may issue one callback request, and touches nothing else. -/

namespace Sys2Proof.Machine

/-- The effect a handler may have from `s` to `r` (R127, R141, R145, R149 to R156, R170). -/
structure HandlerEffect (s : State) (r : Handled) : Prop where
  state : ∃ a bs,
    (a = 1 ∨ a = 2) ∧ r.len = a + bs.length ∧
      r.state = { s with
        txBuf := s.txBuf.writes a bs
        stats := r.state.stats
        answers := r.state.answers
        requests := r.state.requests }
  lenMin : 3 ≤ r.len
  lenMax : r.len ≤ 258
  fits : 8 ≤ s.cfg.txCap → r.len + 2 ≤ s.cfg.txCap
  stats : r.state.stats = s.stats ∨
    (r.outcome = .answeredError ∧ r.state.stats = s.stats.count s.cfg .invalid)
  asked : (r.state.requests = s.requests ∧ r.state.answers = s.answers) ∨
    (r.state.stats = s.stats ∧ ∃ q, r.state.requests = q :: s.requests ∧ r.state.answers = s.answers.tail)

/-- A handler whose every success has that effect. -/
def HandlerSound (h : Handler) : Prop :=
  ∀ n s r, h n s = .ok r → HandlerEffect s r

/-- What was done before a reply: nothing, one count, or one request. -/
def Prelude (s s1 : State) : Prop :=
  s1 = s ∨ s1 = s.count .invalid ∨ ∃ q, s1 = s.callback q

theorem effect_of_raise {e : Byte} {s s1 : State} {r : Handled} (hp : Prelude s s1)
    (h : raiseException e s1 = .ok r) : HandlerEffect s r := by
  obtain ⟨f, -, h2, rfl⟩ := raiseException_eq_ok.mp h
  rcases hp with rfl | rfl | ⟨q, rfl⟩
  · exact ⟨⟨1, [f ||| 0x80, e], Or.inl rfl, rfl, rfl⟩, by simp, by simp, fun h8 => by simp at h2 ⊢; omega,
      Or.inl rfl, Or.inl ⟨rfl, rfl⟩⟩
  · exact ⟨⟨1, [f ||| 0x80, e], Or.inl rfl, rfl, rfl⟩, by simp, by simp, fun h8 => by simp at h2 ⊢; omega,
      Or.inr ⟨rfl, rfl⟩, Or.inl ⟨rfl, rfl⟩⟩
  · exact ⟨⟨1, [f ||| 0x80, e], Or.inl rfl, rfl, rfl⟩, by simp, by simp, fun h8 => by simp at h2 ⊢; omega,
      Or.inl rfl, Or.inr ⟨rfl, q, rfl, rfl⟩⟩

/-- A reply that writes `bs` from offset 2 on and answers `OK`. -/
theorem effect_of_reply {s s1 : State} {bs : List Byte} {o : HandlerOutcome}
    (hp : s1 = s ∨ ∃ q, s1 = s.callback q) (h1 : 1 ≤ bs.length) (h2 : bs.length ≤ 256)
    (h3 : 8 ≤ s.cfg.txCap → 2 + bs.length + 2 ≤ s.cfg.txCap) :
    HandlerEffect s ⟨{ s1 with txBuf := s1.txBuf.writes 2 bs }, o, 2 + bs.length⟩ := by
  rcases hp with rfl | ⟨q, rfl⟩
  · exact ⟨⟨2, bs, Or.inr rfl, rfl, rfl⟩, by simp; omega, by simp; omega, h3, Or.inl rfl, Or.inl ⟨rfl, rfl⟩⟩
  · exact ⟨⟨2, bs, Or.inr rfl, rfl, rfl⟩, by simp; omega, by simp; omega, h3, Or.inl rfl, Or.inr ⟨rfl, q, rfl, rfl⟩⟩

theorem sound_read (k : CbKind) : HandlerSound (readHandler k) := by
  intro n s r h
  obtain ⟨start, -, h⟩ := bind_eq_ok.mp h
  obtain ⟨count, -, h⟩ := bind_eq_ok.mp h
  split at h
  · exact effect_of_raise (Or.inr (Or.inl rfl)) h
  · unfold readReply at h
    split at h
    · exact effect_of_raise (Or.inr (Or.inr ⟨_, rfl⟩)) h
    · split at h
      · exact effect_of_raise (Or.inr (Or.inr ⟨_, rfl⟩)) h
      · split at h
        · exact effect_of_raise (Or.inr (Or.inr ⟨_, rfl⟩)) h
        · next hfit =>
          obtain ⟨s1, h1, h⟩ := bind_eq_ok.mp h
          obtain ⟨s2, h2, h⟩ := bind_eq_ok.mp h
          obtain ⟨-, rfl⟩ := State.txStore_eq_ok.mp h1
          obtain ⟨rfl, -⟩ := State.txStores_eq_ok h2
          cases h
          have hl := s.nextAnswer.lenOk
          have := effect_of_reply (s := s) (o := .ok) (bs := BitVec.ofNat 8 s.nextAnswer.data.length :: s.nextAnswer.data)
            (Or.inr ⟨⟨k, start, count, []⟩, rfl⟩) (by simp) (by simp; omega)
            (fun _ => by simp at hfit ⊢; omega)
          rw [show 2 + (BitVec.ofNat 8 s.nextAnswer.data.length :: s.nextAnswer.data).length
            = 3 + s.nextAnswer.data.length by simp; omega] at this
          exact this

theorem sound_write (k : CbKind) : HandlerSound (writeHandler k) := by
  intro n s r h
  obtain ⟨start, -, h⟩ := bind_eq_ok.mp h
  obtain ⟨count, -, h⟩ := bind_eq_ok.mp h
  split at h
  · exact effect_of_raise (Or.inr (Or.inl rfl)) h
  · obtain ⟨data, -, h⟩ := bind_eq_ok.mp h
    unfold writeReply at h
    split at h
    · exact effect_of_raise (Or.inr (Or.inr ⟨_, rfl⟩)) h
    · obtain ⟨s1, h1, h⟩ := bind_eq_ok.mp h
      cases h
      obtain ⟨bs, hbs, rfl⟩ := State.echo_eq_ok h1
      have hl := Memory.readRange_length hbs
      have := effect_of_reply (s := s) (o := .ok) (bs := bs) (Or.inr ⟨⟨k, start, count, data⟩, rfl⟩)
        (by omega) (by omega) (by omega)
      simpa [hl] using this

theorem sound_diagEcho : HandlerSound handleDiagEcho := by
  intro n s r h
  obtain ⟨s1, h1, h⟩ := bind_eq_ok.mp h
  cases h
  obtain ⟨bs, hbs, rfl⟩ := State.echo_eq_ok h1
  have hl := Memory.readRange_length hbs
  have := effect_of_reply (s := s) (o := .ok) (bs := bs) (Or.inl rfl) (by omega) (by omega) (by omega)
  simpa [hl] using this

/-- All that a diagnostic answer does (R151, R152). -/
theorem diagReply_eq_ok {v : Word} {s : State} {r : Handled} (h : diagReply v s = .ok r) :
    ∃ bs, s.rxBuf.readRange 2 2 = some bs ∧
      r = ⟨{ s with txBuf := s.txBuf.writes 2 (bs ++ [hiByte v, loByte v]) }, .ok, 6⟩ := by
  obtain ⟨s1, h1, h⟩ := bind_eq_ok.mp h
  obtain ⟨s2, h2, h⟩ := bind_eq_ok.mp h
  cases h
  obtain ⟨bs, hbs, rfl⟩ := State.echo_eq_ok h1
  obtain ⟨rfl, -⟩ := State.txStores_eq_ok h2
  refine ⟨bs, hbs, ?_⟩
  match bs, Memory.readRange_length hbs with
  | [x, y], _ => rfl

theorem effect_of_diagReply {v : Word} {s s1 : State} {r : Handled} (hp : s1 = s ∨ ∃ q, s1 = s.callback q)
    (h : diagReply v s1 = .ok r) : HandlerEffect s r := by
  obtain ⟨bs, hbs, rfl⟩ := diagReply_eq_ok h
  have hl := Memory.readRange_length hbs
  have := effect_of_reply (s := s) (o := .ok) (bs := bs ++ [hiByte v, loByte v]) hp
    (by simp) (by simp; omega) (by simp; omega)
  simpa [hl] using this

theorem sound_diagStat (i : StatIx) : HandlerSound (handleDiagStat i) :=
  fun _ _ _ h => effect_of_diagReply (Or.inl rfl) h

theorem sound_diagUser (subfn : Word) : HandlerSound (handleDiagUser subfn) := by
  intro n s r h
  obtain ⟨data, -, h⟩ := bind_eq_ok.mp h
  dsimp only at h
  split at h
  · exact effect_of_raise (Or.inr (Or.inr ⟨_, rfl⟩)) h
  · exact effect_of_diagReply (Or.inr ⟨_, rfl⟩) h

theorem sound_diagUnbound : HandlerSound handleDiagUnbound :=
  fun _ _ _ h => effect_of_raise (Or.inr (Or.inl rfl)) h

theorem sound_unrecognized : HandlerSound handleUnrecognized :=
  fun _ _ _ h => effect_of_raise (Or.inl rfl) h

theorem sound_diag : HandlerSound handleDiag := by
  intro n s r h
  obtain ⟨subfn, -, h⟩ := bind_eq_ok.mp h
  split at h
  · exact sound_diagEcho _ _ _ h
  · exact sound_diagStat _ _ _ _ h
  · exact sound_diagUser _ _ _ _ h
  · exact sound_diagUnbound _ _ _ h

/-- The dispatch has one of the handlers' effects (R127). -/
theorem sound_dispatch : HandlerSound dispatch := by
  intro n s r h
  obtain ⟨f, -, h⟩ := bind_eq_ok.mp h
  split at h
  · exact sound_read _ _ _ _ h
  · exact sound_read _ _ _ _ h
  · exact sound_read _ _ _ _ h
  · exact sound_write _ _ _ _ h
  · exact sound_write _ _ _ _ h
  · exact sound_write _ _ _ _ h
  · exact sound_diag _ _ _ h
  · exact sound_unrecognized _ _ _ h

end Sys2Proof.Machine
end

