-- ==== Sys2Proof/Laws/PerInstr.lean ====
section
/-! SUPPORT. The family RoundTrip: decoding the encoding of a well-formed instruction gives it back; one lemma per
constructor. -/

namespace Sys2Proof.Laws

@[simp] theorem beWord_hi_lo (v : Word) : beWord (hiByte v) (loByte v) = v := by
  simp only [beWord, hiByte, loByte]
  ext i hi
  simp only [BitVec.getElem_append, BitVec.getElem_extractLsb']
  split
  · rw [Nat.zero_add]; exact BitVec.getLsbD_eq_getElem hi
  · rw [show 8 + (i - 8) = i by omega]; exact BitVec.getLsbD_eq_getElem hi

theorem beWord_toNat (hi lo : Byte) : (beWord hi lo).toNat = hi.toNat * 256 + lo.toNat := by
  unfold beWord
  rw [BitVec.toNat_append]
  have h : lo.toNat < 2 ^ 8 := lo.isLt
  rw [← Nat.shiftLeft_add_eq_or_of_lt h, Nat.shiftLeft_eq]

@[simp] theorem hiByte_beWord (hi lo : Byte) : hiByte (beWord hi lo) = hi := by
  apply BitVec.eq_of_toNat_eq
  have h1 := hi.isLt
  have h2 := lo.isLt
  simp [hiByte, beWord_toNat, Nat.shiftRight_eq_div_pow]
  omega

@[simp] theorem loByte_beWord (hi lo : Byte) : loByte (beWord hi lo) = lo := by
  apply BitVec.eq_of_toNat_eq
  have h1 := hi.isLt
  have h2 := lo.isLt
  simp [loByte, beWord_toNat]
  omega

/-- What an accepted configuration satisfies (R6, R8, R9). -/
theorem bounds_of_wf {c : Config} (h : c.wf = true) :
    1 ≤ c.rxCap ∧ c.rxCap ≤ 65535 ∧ 8 ≤ c.txCap ∧ c.txCap ≤ 65535 ∧ c.statBase.toNat ≤ 0xFFFB ∧ 16 ≤ c.statW ∧
      c.fc.all.Nodup := by
  simpa [Config.wf, FuncCodes.wf, and_assoc] using h

/-- The codes of an accepted configuration are distinct, so each selects its own kind (R9, R84). -/
theorem ofCode_of_wf {c : Config} (h : c.wf = true) :
    FuncKind.ofCode c.fc c.fc.rc = .rc ∧ FuncKind.ofCode c.fc c.fc.ri = .ri ∧
    FuncKind.ofCode c.fc c.fc.rh = .rh ∧ FuncKind.ofCode c.fc c.fc.wsr = .wsr ∧
    FuncKind.ofCode c.fc c.fc.wmc = .wmc ∧ FuncKind.ofCode c.fc c.fc.wmr = .wmr ∧
    FuncKind.ofCode c.fc c.fc.diag = .diag := by
  simp only [Config.wf, FuncCodes.wf, FuncCodes.all, Bool.and_eq_true, decide_eq_true_eq,
    List.nodup_cons, List.mem_cons, List.not_mem_nil, not_or, or_false] at h
  obtain ⟨-, ⟨a1, a2, a3, a4, a5, a6⟩, ⟨b1, b2, b3, b4, b5⟩, ⟨c1, c2, c3, c4⟩, ⟨d1, d2, d3⟩, ⟨e1, e2⟩, f1, -⟩ := h
  refine ⟨?_, ?_, ?_, ?_, ?_, ?_, ?_⟩ <;> simp only [FuncKind.ofCode, if_true]
  · rw [if_neg (Ne.symm a1)]
  · rw [if_neg (Ne.symm a2), if_neg (Ne.symm b1)]
  · rw [if_neg (Ne.symm a3), if_neg (Ne.symm b2), if_neg (Ne.symm c1)]
  · rw [if_neg (Ne.symm a5), if_neg (Ne.symm b4), if_neg (Ne.symm c3), if_neg (Ne.symm d2)]
  · rw [if_neg (Ne.symm a6), if_neg (Ne.symm b5), if_neg (Ne.symm c4), if_neg (Ne.symm d3), if_neg (Ne.symm f1)]
  · rw [if_neg (Ne.symm a4), if_neg (Ne.symm b3), if_neg (Ne.symm c2), if_neg (Ne.symm d1), if_neg e1, if_neg e2]

theorem ofCode_other {c : FuncCodes} {f : Byte} (h : f ∉ c.all) : FuncKind.ofCode c f = .other := by
  simp only [FuncCodes.all, List.mem_cons, List.not_mem_nil, not_or, or_false] at h
  simp [FuncKind.ofCode, h]

/-- A diagnostic request decodes by its sub-function (R85). -/
theorem decode_encodeDiag {c : Config} (h : c.wf = true) (subfn : Word) :
    decode c (encodeDiag c subfn) = .ok (decodeDiag c subfn) := by
  simp [encodeDiag, decode, decodeFunction, (ofCode_of_wf h).2.2.2.2.2.2]

/-- The sub-function of a counter is in the range and selects it (R151); `STAT_BASE + 4` does not wrap (R8). -/
theorem statSub_toNat {c : Config} (h : c.wf = true) (i : StatIx) :
    (statSub c i).toNat = c.statBase.toNat + i.offset := by
  simp only [Config.wf, Bool.and_eq_true, decide_eq_true_eq] at h
  have hi : i.offset ≤ 4 := by cases i <;> decide
  simp only [statSub, BitVec.toNat_add, BitVec.toNat_ofNat]
  omega

theorem ofSub_statSub {c : Config} (h : c.wf = true) (i : StatIx) (he : c.statsEn = true)
    (h0 : statSub c i ≠ 0) : DiagKind.ofSub c (statSub c i) = .stat i := by
  have hn := statSub_toNat h i
  have hx : StatIx.ofOffset i.offset = some i := by cases i <;> rfl
  rw [DiagKind.ofSub, if_neg h0]
  simp [statIndex, he, hn, hx]

theorem statSub_ne_zero {c : Config} (h : c.wf = true) (i : StatIx) (hi : 0 < i.offset) : statSub c i ≠ 0 := by
  intro h0
  have hn := statSub_toNat h i
  rw [h0] at hn
  have h00 : (0 : Word).toNat = 0 := rfl
  omega

theorem ofSub_user {c : Config} {subfn : Word} (h : c.isUserSub subfn = true) :
    DiagKind.ofSub c subfn = if c.cbBound.diag = true then .user else .unbound := by
  simp only [Config.isUserSub, Config.inStatRange, Bool.and_eq_true, decide_eq_true_eq, Bool.not_eq_true',
    Bool.and_eq_false_iff, decide_eq_false_iff_not] at h
  obtain ⟨h0, h⟩ := h
  have hn : statIndex c subfn = none := by
    unfold statIndex
    split
    · next hr =>
      have hge : 5 ≤ subfn.toNat - c.statBase.toNat := by
        rcases h with (h | h) | h
        · simp [hr.1] at h
        · omega
        · omega
      match hk : subfn.toNat - c.statBase.toNat, hge with
      | k + 5, _ => rfl
    · rfl
  rw [DiagKind.ofSub, if_neg h0, hn]

namespace RoundTrip

/-- Decode and encode agree on `i` in every accepted configuration in which it is well-formed. -/
def Statement (i : Instr) : Prop :=
  ∀ c : Config, c.wf = true → i.wf c = true → decode c (encode c i) = .ok i

theorem nop : Statement .nop := fun _ _ _ => rfl

theorem ingest (din : Byte) : Statement (.ingest din) := fun _ _ _ => rfl

theorem process : Statement .process := fun _ _ _ => rfl

theorem drain : Statement .drain := fun _ _ _ => rfl

theorem readCoils : Statement .readCoils := fun c h _ => by
  simp [encode, decode, decodeFunction, (ofCode_of_wf h).1]

theorem readInputs : Statement .readInputs := fun c h _ => by
  simp [encode, decode, decodeFunction, (ofCode_of_wf h).2.1]

theorem readHoldingRegisters : Statement .readHoldingRegisters := fun c h _ => by
  simp [encode, decode, decodeFunction, (ofCode_of_wf h).2.2.1]

theorem writeSingleRegister : Statement .writeSingleRegister := fun c h _ => by
  simp [encode, decode, decodeFunction, (ofCode_of_wf h).2.2.2.1]

theorem writeMultipleCoils : Statement .writeMultipleCoils := fun c h _ => by
  simp [encode, decode, decodeFunction, (ofCode_of_wf h).2.2.2.2.1]

theorem writeMultipleRegisters : Statement .writeMultipleRegisters := fun c h _ => by
  simp [encode, decode, decodeFunction, (ofCode_of_wf h).2.2.2.2.2.1]

theorem diagEcho : Statement .diagEcho := fun c h _ => by
  simp [encode, decode_encodeDiag h, decodeDiag, DiagKind.ofSub]

/-- A statistics row whose sub-function is not the echo's. -/
theorem of_stat {c : Config} (h : c.wf = true) (he : c.statsEn = true) (i : StatIx) (h0 : statSub c i ≠ 0) :
    decode c (encodeDiag c (statSub c i)) =
      .ok (match i with
        | .seen => .diagStatSeen
        | .addressed => .diagStatAddressed
        | .ok => .diagStatOk
        | .err => .diagStatErr
        | .invalid => .diagStatInvalid) := by
  rw [decode_encodeDiag h, decodeDiag, ofSub_statSub h i he h0]
  cases i <;> rfl

theorem diagStatSeen : Statement .diagStatSeen := fun c h hw => by
  simp only [Instr.wf, Bool.and_eq_true, decide_eq_true_eq] at hw
  refine of_stat h hw.1 .seen fun h0 => hw.2 ?_
  simpa [statSub, StatIx.offset] using h0

theorem diagStatAddressed : Statement .diagStatAddressed := fun _ h hw =>
  of_stat h hw .addressed (statSub_ne_zero h _ (by decide))

theorem diagStatOk : Statement .diagStatOk := fun _ h hw =>
  of_stat h hw .ok (statSub_ne_zero h _ (by decide))

theorem diagStatErr : Statement .diagStatErr := fun _ h hw =>
  of_stat h hw .err (statSub_ne_zero h _ (by decide))

theorem diagStatInvalid : Statement .diagStatInvalid := fun _ h hw =>
  of_stat h hw .invalid (statSub_ne_zero h _ (by decide))

theorem diagUser (subfn : Word) : Statement (.diagUser subfn) := fun c h hw => by
  simp only [Instr.wf, Bool.and_eq_true] at hw
  simp [encode, decode_encodeDiag h, decodeDiag, ofSub_user hw.1, hw.2]

theorem diagUnbound (subfn : Word) : Statement (.diagUnbound subfn) := fun c h hw => by
  simp only [Instr.wf, Bool.and_eq_true, Bool.not_eq_true'] at hw
  simp [encode, decode_encodeDiag h, decodeDiag, ofSub_user hw.1, hw.2]

theorem unrecognized (f : Byte) : Statement (.unrecognized f) := fun c _ hw => by
  simp only [Instr.wf, decide_eq_true_eq] at hw
  simp [encode, decode, decodeFunction, ofCode_other hw]

end RoundTrip

end Sys2Proof.Laws
end

