-- ==== Sys2Proof/Laws/Process.lean ====
section
/-! SUPPORT. Everything a PROCESS can do, said once, and everything a step can do. -/

namespace Sys2Proof.Machine

/-- The state a handler of an accepted frame starts from: the frame consumed, the old response cleared, the header in
place, `stat_addressed` counted for a unicast frame (R120, R122, R125, R126). -/
def handlerStart (s : State) (bc : Bool) (a f : Byte) : State :=
  { s with
    rxLen := 0
    txBuf := s.txBuf.writes 0 [a, f]
    txLen := 0
    txRem := 0
    stats := if bc = true then s.stats else s.stats.count s.cfg .addressed }

/-- The seven ways a PROCESS with the handler `h` ends (R133). -/
inductive ProcessEnd (h : Handler) (s t : State) : Prop where
  | null (hc : s.cfg.ctxBound = false)
      (ht : t = { s with rxLen := 0, outputs := ⟨.errNull, 0x00⟩ :: s.outputs })
  | short (hc : s.cfg.ctxBound = true) (hn : s.rxLen < 7) (ht : t = s.dropped .errInvalidPacket [.invalid, .seen])
  | crc (hc : s.cfg.ctxBound = true) (hn : 7 ≤ s.rxLen) (hr : s.crc ≠ 0x0000)
      (ht : t = s.dropped .errCrc [.invalid, .seen])
  | unsupported (hc : s.cfg.ctxBound = true) (hn : 7 ≤ s.rxLen) (hr : s.crc = 0x0000) (a f : Byte)
      (ha : s.rxByte 0 = .ok a) (hf : s.rxByte 1 = .ok f) (hres : resolveAddress s.cfg a f = .unsupported)
      (ht : t = s.dropped .errBroadcastUnsupported [.seen])
  | mismatch (hc : s.cfg.ctxBound = true) (hn : 7 ≤ s.rxLen) (hr : s.crc = 0x0000) (a f : Byte)
      (ha : s.rxByte 0 = .ok a) (hf : s.rxByte 1 = .ok f) (hres : resolveAddress s.cfg a f = .mismatch)
      (ht : t = s.dropped .errAddressMismatch [.seen])
  | unicast (hc : s.cfg.ctxBound = true) (hn : 7 ≤ s.rxLen) (hr : s.crc = 0x0000) (a f : Byte)
      (ha : s.rxByte 0 = .ok a) (hf : s.rxByte 1 = .ok f) (hres : resolveAddress s.cfg a f = .unicast)
      (hcap : 1 < s.cfg.txCap) (r : Handled) (u : State) (hh : h s.rxLen (handlerStart s false a f) = .ok r)
      (hu : finishUnicast r = .ok u) (ht : t = (u.count .seen).ret r.outcome.result)
  | broadcast (hc : s.cfg.ctxBound = true) (hn : 7 ≤ s.rxLen) (hr : s.crc = 0x0000) (a f : Byte)
      (ha : s.rxByte 0 = .ok a) (hf : s.rxByte 1 = .ok f) (hres : resolveAddress s.cfg a f = .broadcast)
      (hcap : 1 < s.cfg.txCap) (r : Handled) (hh : h s.rxLen (handlerStart s true a f) = .ok r)
      (ht : t = ({ r.state with txLen := 0, txRem := 0 }.count .seen).ret r.outcome.result)

theorem processWith_end {h : Handler} {s t : State} (ht : processWith h s = .ok t) : ProcessEnd h s t := by
  rcases processWith_cases ht with ⟨hc, ht⟩ | ⟨hc, ht⟩
  · exact .null hc ht
  · rcases validate_cases ht with ⟨hn, ht⟩ | ⟨hn, hr, ht⟩ | ⟨hn, hr, a, f, ha, hf, ht⟩
    · exact .short hc hn ht
    · exact .crc hc hn hr ht
    · rcases ht with ⟨hres, ht⟩ | ⟨hres, ht⟩ | ⟨hres, ht⟩ | ⟨hres, ht⟩
      · exact .unsupported hc hn hr a f ha hf hres ht
      · exact .mismatch hc hn hr a f ha hf hres ht
      · obtain ⟨hcap, r, hh, u, hu, ht⟩ := respond_eq_ok.mp ht
        exact .unicast hc hn hr a f ha hf hres hcap r u hh hu ht
      · obtain ⟨hcap, r, hh, u, hu, ht⟩ := respond_eq_ok.mp ht
        cases hu
        exact .broadcast hc hn hr a f ha hf hres hcap r hh ht

/-- Every end can be taken: what a PROCESS does, from its conditions. -/
theorem ProcessEnd.run {h : Handler} {s t : State} (e : ProcessEnd h s t) : processWith h s = .ok t := by
  cases e with
  | null hc ht => subst ht; simp [processWith, hc, State.consumeFrame, State.ret, sentinel]
  | short hc hn ht =>
    subst ht
    simp [processWith, hc, validate, minFrame, hn]
    rfl
  | crc hc hn hr ht =>
    subst ht
    rw [processWith, if_neg (by simp [hc]), validate, if_neg (by simp [minFrame]; omega), if_pos (by simpa using hr)]
    rfl
  | unsupported hc hn hr a f ha hf hres ht =>
    subst ht
    rw [processWith, if_neg (by simp [hc]), validate, if_neg (by simp [minFrame]; omega), if_neg (by simpa using hr)]
    exact bind_eq_ok.mpr ⟨a, ha, bind_eq_ok.mpr ⟨f, hf, by
      rw [show resolveAddress s.consumeFrame.clearResponse.cfg a f = .unsupported from hres]; rfl⟩⟩
  | mismatch hc hn hr a f ha hf hres ht =>
    subst ht
    rw [processWith, if_neg (by simp [hc]), validate, if_neg (by simp [minFrame]; omega), if_neg (by simpa using hr)]
    exact bind_eq_ok.mpr ⟨a, ha, bind_eq_ok.mpr ⟨f, hf, by
      rw [show resolveAddress s.consumeFrame.clearResponse.cfg a f = .mismatch from hres]; rfl⟩⟩
  | unicast hc hn hr a f ha hf hres hcap r u hh hu ht =>
    rw [processWith, if_neg (by simp [hc]), validate, if_neg (by simp [minFrame]; omega), if_neg (by simpa using hr)]
    refine bind_eq_ok.mpr ⟨a, ha, bind_eq_ok.mpr ⟨f, hf, ?_⟩⟩
    rw [show resolveAddress s.consumeFrame.clearResponse.cfg a f = .unicast from hres]
    exact respond_eq_ok.mpr ⟨hcap, r, hh, u, hu, ht⟩
  | broadcast hc hn hr a f ha hf hres hcap r hh ht =>
    rw [processWith, if_neg (by simp [hc]), validate, if_neg (by simp [minFrame]; omega), if_neg (by simpa using hr)]
    refine bind_eq_ok.mpr ⟨a, ha, bind_eq_ok.mpr ⟨f, hf, ?_⟩⟩
    rw [show resolveAddress s.consumeFrame.clearResponse.cfg a f = .broadcast from hres]
    exact respond_eq_ok.mpr ⟨hcap, r, hh, _, rfl, ht⟩

/-- The handler of a row whose meaning is a PROCESS. -/
def handlerOf : Instr → Handler
  | .nop => dispatch
  | .ingest _ => dispatch
  | .process => dispatch
  | .drain => dispatch
  | .readCoils => handleReadCoils
  | .readInputs => handleReadInputs
  | .readHoldingRegisters => handleReadHoldingRegisters
  | .writeSingleRegister => handleWriteSingleRegister
  | .writeMultipleCoils => handleWriteMultipleCoils
  | .writeMultipleRegisters => handleWriteMultipleRegisters
  | .diagEcho => handleDiagEcho
  | .diagStatSeen => handleDiagStat .seen
  | .diagStatAddressed => handleDiagStat .addressed
  | .diagStatOk => handleDiagStat .ok
  | .diagStatErr => handleDiagStat .err
  | .diagStatInvalid => handleDiagStat .invalid
  | .diagUser subfn => handleDiagUser subfn
  | .diagUnbound _ => handleDiagUnbound
  | .unrecognized _ => handleUnrecognized

theorem exec_of_runsProcess {i : Instr} (hi : runsProcess i = true) (s : State) :
    exec i s = outcomeOf (processWith (handlerOf i) s) := by
  cases i <;> first | rfl | cases hi

theorem sound_handlerOf (i : Instr) : HandlerSound (handlerOf i) := by
  cases i with
  | nop => exact sound_dispatch
  | ingest _ => exact sound_dispatch
  | process => exact sound_dispatch
  | drain => exact sound_dispatch
  | readCoils => exact sound_read _
  | readInputs => exact sound_read _
  | readHoldingRegisters => exact sound_read _
  | writeSingleRegister => exact sound_write _
  | writeMultipleCoils => exact sound_write _
  | writeMultipleRegisters => exact sound_write _
  | diagEcho => exact sound_diagEcho
  | diagStatSeen => exact sound_diagStat _
  | diagStatAddressed => exact sound_diagStat _
  | diagStatOk => exact sound_diagStat _
  | diagStatErr => exact sound_diagStat _
  | diagStatInvalid => exact sound_diagStat _
  | diagUser subfn => exact sound_diagUser _
  | diagUnbound _ => exact sound_diagUnbound
  | unrecognized _ => exact sound_unrecognized

/-- All that a next state of a PROCESS row says. -/
theorem exec_process_end {i : Instr} {s t : State} (hi : runsProcess i = true) (h : exec i s = .next t) :
    ProcessEnd (handlerOf i) s t :=
  processWith_end (outcomeOf_eq_next.mp (exec_of_runsProcess hi s ▸ h))

/-- All that an INGEST does (R110 to R112). -/
theorem ingest_eq_ok {b : Byte} {s t : State} :
    ingest b s = .ok t ↔ s.rxLen < s.cfg.rxCap ∧
      t = State.advance { s with
        rxBuf := s.rxBuf.write s.rxLen b, crc := crcAddBy s.cfg.crcStrategy b s.seed } := by
  unfold ingest
  simp only [bind_eq_ok, State.rxStore_eq_ok, pure, Except.pure, Except.ok.injEq]
  constructor
  · rintro ⟨_, ⟨h, rfl⟩, rfl⟩; exact ⟨h, rfl⟩
  · rintro ⟨h, rfl⟩; exact ⟨_, ⟨h, rfl⟩, rfl⟩

/-- All that a DRAIN does (R190, R191). -/
theorem drain_eq_ok {s t : State} :
    drain s = .ok t ↔
      (s.txRem = 0 ∧ t = s.ret .msgEnded) ∨
      (0 < s.txRem ∧ s.txRem ≤ s.txLen ∧ ∃ b, s.txByte (s.txLen - s.txRem) = .ok b ∧
        t = State.retByte { s with txRem := s.txRem - 1 } b) := by
  unfold drain
  split
  · next h => simp [h, eq_comm]
  · next h =>
    split
    · next h2 => simp only [reduceCtorEq, false_iff]; omega
    · next h2 =>
      simp only [bind_eq_ok, pure, Except.pure, Except.ok.injEq]
      constructor
      · rintro ⟨b, hb, rfl⟩; exact Or.inr ⟨by omega, by omega, b, hb, rfl⟩
      · rintro (⟨h0, -⟩ | ⟨-, -, b, hb, rfl⟩)
        · exact absurd h0 h
        · exact ⟨b, hb, rfl⟩

end Sys2Proof.Machine
end

