-- ==== Sys2Proof/Laws/Ready.lean ====
section
/-! SUPPORT. What every handler does, as one equation each, on a state in which its frame can be read. -/

namespace Sys2Proof.Machine

/-- A state in which the handler of an accepted frame of `n` bytes can do its work: the six header bytes and the data
region have values, and the buffers are large enough (R6, R65). -/
structure Ready (u : State) (n : Nat) (a f b2 b3 b4 b5 : Byte) (data : List Byte) : Prop where
  tx : 8 ≤ u.cfg.txCap
  rx : 6 ≤ u.cfg.rxCap
  rxd : 6 + dataLen n ≤ u.cfg.rxCap
  bytes : u.rxBuf.readRange 0 6 = some [a, f, b2, b3, b4, b5]
  region : u.rxBuf.readRange 6 (dataLen n) = some data

/-- The result of an exception `e` for a request with function code `f` (R170). -/
def raised (u : State) (f e : Byte) : Handled :=
  ⟨{ u with txBuf := u.txBuf.writes 1 [f ||| 0x80, e] }, .answeredError, 3⟩

/-- The result of a success that writes `bs` from offset 2 on (R177). -/
def replied (u : State) (bs : List Byte) : Handled :=
  ⟨{ u with txBuf := u.txBuf.writes 2 bs }, .ok, 2 + bs.length⟩

variable {u : State} {n : Nat} {a f b2 b3 b4 b5 : Byte} {data : List Byte}

/-! ## What a ready state reads -/

theorem Ready.mono {u' : State} (h : Ready u n a f b2 b3 b4 b5 data) (h1 : u'.rxBuf = u.rxBuf)
    (h2 : u'.cfg = u.cfg) : Ready u' n a f b2 b3 b4 b5 data := by
  constructor
  · rw [h2]; exact h.tx
  · rw [h2]; exact h.rx
  · rw [h2]; exact h.rxd
  · rw [h1]; exact h.bytes
  · rw [h1]; exact h.region

theorem Ready.byte (h : Ready u n a f b2 b3 b4 b5 data) (k : Nat) (hk : k < 6) :
    u.rxByte k = .ok ([a, f, b2, b3, b4, b5].getD k 0) := by
  have hr := Memory.read_of_readRange h.bytes k hk
  have := h.rx
  refine State.rxByte_eq_ok.mpr ⟨by omega, ?_⟩
  rw [Nat.zero_add] at hr
  rw [hr, List.getD_eq_getElem?_getD, List.getElem?_eq_getElem (by simpa using hk)]
  rfl

theorem Ready.readsF (h : Ready u n a f b2 b3 b4 b5 data) : u.fieldF = .ok (beWord b2 b3) :=
  State.rxWord_eq_ok.mpr ⟨b2, b3, h.byte 2 (by omega), h.byte 3 (by omega), rfl⟩

theorem Ready.readsG (h : Ready u n a f b2 b3 b4 b5 data) : u.fieldG = .ok (beWord b4 b5) :=
  State.rxWord_eq_ok.mpr ⟨b4, b5, h.byte 4 (by omega), h.byte 5 (by omega), rfl⟩

theorem Ready.readsRegion (h : Ready u n a f b2 b3 b4 b5 data) : u.dataRegion n = .ok data :=
  State.rxBytes_of_readRange h.rxd h.region

theorem Ready.echo4 (h : Ready u n a f b2 b3 b4 b5 data) :
    u.echo 2 4 = .ok { u with txBuf := u.txBuf.writes 2 [b2, b3, b4, b5] } :=
  State.echo_of_readRange h.rx (by have := h.tx; omega) (Memory.readRange_sub h.bytes 2 4 (by omega))

theorem Ready.echo2 (h : Ready u n a f b2 b3 b4 b5 data) :
    u.echo 2 2 = .ok { u with txBuf := u.txBuf.writes 2 [b2, b3] } :=
  State.echo_of_readRange (by have := h.rx; omega) (by have := h.tx; omega)
    (Memory.readRange_sub h.bytes 2 2 (by omega))

theorem Ready.raises (h : Ready u n a f b2 b3 b4 b5 data) (e : Byte) : raiseException e u = .ok (raised u f e) :=
  raiseException_eq_ok.mpr ⟨f, h.byte 1 (by omega), by have := h.tx; omega, rfl⟩

/-! ## What each handler does on a ready state -/

theorem readHandler_unbound (h : Ready u n a f b2 b3 b4 b5 data) {k : CbKind} (hb : u.cfg.cbBound.bound k = false) :
    readHandler k n u = .ok (raised (u.count .invalid) f 0x01) := by
  unfold readHandler
  simp only [h.readsF, h.readsG, bind, Except.bind, hb, if_true]
  exact (h.mono (u' := u.count .invalid) rfl rfl).raises _

theorem readHandler_bound (h : Ready u n a f b2 b3 b4 b5 data) {k : CbKind} (hb : u.cfg.cbBound.bound k = true) :
    readHandler k n u = readReply u.nextAnswer (u.callback ⟨k, beWord b2 b3, beWord b4 b5, []⟩) := by
  unfold readHandler
  simp only [h.readsF, h.readsG, bind, Except.bind]
  rw [if_neg (by simp [hb])]

theorem writeHandler_unbound (h : Ready u n a f b2 b3 b4 b5 data) {k : CbKind} (hb : u.cfg.cbBound.bound k = false) :
    writeHandler k n u = .ok (raised (u.count .invalid) f 0x01) := by
  unfold writeHandler
  simp only [h.readsF, h.readsG, bind, Except.bind, hb, if_true]
  exact (h.mono (u' := u.count .invalid) rfl rfl).raises _

theorem writeHandler_bound (h : Ready u n a f b2 b3 b4 b5 data) {k : CbKind} (hb : u.cfg.cbBound.bound k = true) :
    writeHandler k n u = writeReply u.nextAnswer (u.callback ⟨k, beWord b2 b3, beWord b4 b5, data⟩) := by
  unfold writeHandler
  simp only [h.readsF, h.readsG, h.readsRegion, bind, Except.bind]
  rw [if_neg (by simp [hb])]

theorem readReply_exception (h : Ready u n a f b2 b3 b4 b5 data) {x : Answer} (hx : x.ex ≠ 0x00) :
    readReply x u = .ok (raised u f x.ex) := by
  rw [readReply, if_pos hx]
  exact h.raises _

theorem readReply_null (h : Ready u n a f b2 b3 b4 b5 data) {x : Answer} (hx : x.ex = 0x00) (hn : x.isNull = true) :
    readReply x u = .ok (raised u f 0x04) := by
  rw [readReply, if_neg (by simp [hx]), if_pos hn]
  exact h.raises _

theorem readReply_tooLong (h : Ready u n a f b2 b3 b4 b5 data) {x : Answer} (hx : x.ex = 0x00)
    (hn : x.isNull = false) (hl : u.cfg.txCap < 3 + x.data.length + 2) : readReply x u = .ok (raised u f 0x02) := by
  rw [readReply, if_neg (by simp [hx]), if_neg (by simp [hn]), if_pos hl]
  exact h.raises _

theorem readReply_data {x : Answer} (hx : x.ex = 0x00) (hn : x.isNull = false)
    (hl : 3 + x.data.length + 2 ≤ u.cfg.txCap) :
    readReply x u = .ok (replied u (BitVec.ofNat 8 x.data.length :: x.data)) := by
  rw [readReply, if_neg (by simp [hx]), if_neg (by simp [hn]), if_neg (by omega), replied, List.length_cons,
    show 2 + (x.data.length + 1) = 3 + x.data.length by omega]
  exact bind_eq_ok.mpr ⟨_, State.txStore_eq_ok.mpr ⟨by omega, rfl⟩,
    bind_eq_ok.mpr ⟨_, State.txStores_of_fits (by simpa using (by omega)), rfl⟩⟩

theorem writeReply_exception (h : Ready u n a f b2 b3 b4 b5 data) {x : Answer} (hx : x.ex ≠ 0x00) :
    writeReply x u = .ok (raised u f x.ex) := by
  rw [writeReply, if_pos hx]
  exact h.raises _

theorem writeReply_echo (h : Ready u n a f b2 b3 b4 b5 data) {x : Answer} (hx : x.ex = 0x00) :
    writeReply x u = .ok (replied u [b2, b3, b4, b5]) := by
  rw [writeReply, if_neg (by simp [hx])]
  exact bind_eq_ok.mpr ⟨_, h.echo4, rfl⟩

theorem handleDiagEcho_ok (h : Ready u n a f b2 b3 b4 b5 data) :
    handleDiagEcho n u = .ok (replied u [b2, b3, b4, b5]) :=
  bind_eq_ok.mpr ⟨_, h.echo4, rfl⟩

theorem diagReply_ok (h : Ready u n a f b2 b3 b4 b5 data) (v : Word) :
    diagReply v u = .ok (replied u [b2, b3, hiByte v, loByte v]) :=
  bind_eq_ok.mpr ⟨_, h.echo2, bind_eq_ok.mpr ⟨_, State.txStores_of_fits (by have := h.tx; simp; omega), rfl⟩⟩

theorem handleDiagUser_exception (h : Ready u n a f b2 b3 b4 b5 data) (subfn : Word) (hx : u.nextAnswer.ex ≠ 0x00) :
    handleDiagUser subfn n u = .ok (raised (u.callback ⟨.diag, subfn, beWord b4 b5, []⟩) f u.nextAnswer.ex) := by
  refine bind_eq_ok.mpr ⟨_, h.readsG, ?_⟩
  dsimp only
  rw [if_pos hx]
  exact (h.mono (u' := u.callback _) rfl rfl).raises _

theorem handleDiagUser_value (h : Ready u n a f b2 b3 b4 b5 data) (subfn : Word) (hx : u.nextAnswer.ex = 0x00) :
    handleDiagUser subfn n u = .ok (replied (u.callback ⟨.diag, subfn, beWord b4 b5, []⟩)
      [b2, b3, hiByte u.nextAnswer.val, loByte u.nextAnswer.val]) := by
  refine bind_eq_ok.mpr ⟨_, h.readsG, ?_⟩
  dsimp only
  rw [if_neg (by simp [hx])]
  exact diagReply_ok (h.mono (u' := u.callback _) rfl rfl) _

theorem handleDiagUnbound_ok (h : Ready u n a f b2 b3 b4 b5 data) :
    handleDiagUnbound n u = .ok (raised (u.count .invalid) f 0x01) :=
  (h.mono (u' := u.count .invalid) rfl rfl).raises _

theorem handleUnrecognized_ok (h : Ready u n a f b2 b3 b4 b5 data) :
    handleUnrecognized n u = .ok (raised u f 0x01) :=
  h.raises _

/-! ## Every handler has a result on a ready state (R65) -/

theorem readHandler_total (h : Ready u n a f b2 b3 b4 b5 data) (k : CbKind) : ∃ r, readHandler k n u = .ok r := by
  cases hb : u.cfg.cbBound.bound k
  · exact ⟨_, readHandler_unbound h hb⟩
  · rw [readHandler_bound h hb]
    have h' := h.mono (u' := u.callback ⟨k, beWord b2 b3, beWord b4 b5, []⟩) rfl rfl
    by_cases hx : u.nextAnswer.ex = 0x00
    · cases hn : u.nextAnswer.isNull
      · by_cases hl : u.cfg.txCap < 3 + u.nextAnswer.data.length + 2
        · exact ⟨_, readReply_tooLong h' hx hn hl⟩
        · exact ⟨_, readReply_data hx hn (by simpa using hl)⟩
      · exact ⟨_, readReply_null h' hx hn⟩
    · exact ⟨_, readReply_exception h' hx⟩

theorem writeHandler_total (h : Ready u n a f b2 b3 b4 b5 data) (k : CbKind) : ∃ r, writeHandler k n u = .ok r := by
  cases hb : u.cfg.cbBound.bound k
  · exact ⟨_, writeHandler_unbound h hb⟩
  · rw [writeHandler_bound h hb]
    have h' := h.mono (u' := u.callback ⟨k, beWord b2 b3, beWord b4 b5, data⟩) rfl rfl
    by_cases hx : u.nextAnswer.ex = 0x00
    · exact ⟨_, writeReply_echo h' hx⟩
    · exact ⟨_, writeReply_exception h' hx⟩

theorem handleDiagUser_total (h : Ready u n a f b2 b3 b4 b5 data) (subfn : Word) :
    ∃ r, handleDiagUser subfn n u = .ok r := by
  by_cases hx : u.nextAnswer.ex = 0x00
  · exact ⟨_, handleDiagUser_value h _ hx⟩
  · exact ⟨_, handleDiagUser_exception h _ hx⟩

theorem handleDiagStat_total (h : Ready u n a f b2 b3 b4 b5 data) (i : StatIx) : ∃ r, handleDiagStat i n u = .ok r :=
  ⟨_, diagReply_ok h _⟩

theorem dispatch_total (h : Ready u n a f b2 b3 b4 b5 data) : ∃ r, dispatch n u = .ok r := by
  unfold dispatch
  simp only [show u.rxByte 1 = .ok f from h.byte 1 (by omega), bind, Except.bind]
  split
  · exact readHandler_total h _
  · exact readHandler_total h _
  · exact readHandler_total h _
  · exact writeHandler_total h _
  · exact writeHandler_total h _
  · exact writeHandler_total h _
  · unfold handleDiag
    simp only [h.readsF, bind, Except.bind]
    split
    · exact ⟨_, handleDiagEcho_ok h⟩
    · exact handleDiagStat_total h _
    · exact handleDiagUser_total h _
    · exact ⟨_, handleDiagUnbound_ok h⟩
  · exact ⟨_, handleUnrecognized_ok h⟩

theorem handlerOf_total (i : Instr) (h : Ready u n a f b2 b3 b4 b5 data) : ∃ r, handlerOf i n u = .ok r := by
  cases i with
  | nop => exact dispatch_total h
  | ingest _ => exact dispatch_total h
  | process => exact dispatch_total h
  | drain => exact dispatch_total h
  | readCoils => exact readHandler_total h _
  | readInputs => exact readHandler_total h _
  | readHoldingRegisters => exact readHandler_total h _
  | writeSingleRegister => exact writeHandler_total h _
  | writeMultipleCoils => exact writeHandler_total h _
  | writeMultipleRegisters => exact writeHandler_total h _
  | diagEcho => exact ⟨_, handleDiagEcho_ok h⟩
  | diagStatSeen => exact handleDiagStat_total h _
  | diagStatAddressed => exact handleDiagStat_total h _
  | diagStatOk => exact handleDiagStat_total h _
  | diagStatErr => exact handleDiagStat_total h _
  | diagStatInvalid => exact handleDiagStat_total h _
  | diagUser subfn => exact handleDiagUser_total h _
  | diagUnbound _ => exact ⟨_, handleDiagUnbound_ok h⟩
  | unrecognized _ => exact ⟨_, handleUnrecognized_ok h⟩

/-! ## An accepted request makes its handler's start state ready -/

theorem ready_handlerStart {s : State} {bc : Bool} (hI : s.Inv) (h : s.HasRequest a f b2 b3 b4 b5)
    (hd : s.rxBuf.readRange 6 (dataLen s.rxLen) = some data) :
    Ready (handlerStart s bc a f) s.rxLen a f b2 b3 b4 b5 data := by
  have hcaps := Laws.bounds_of_wf hI.cfgOk
  have h1 := hI.rxLenLt
  have h2 := h.len
  exact ⟨hcaps.2.2.1, by simp only [handlerStart]; omega, by simp only [handlerStart, dataLen]; omega, h.bytes, hd⟩

/-- The data region of an accepted request has values (R65). -/
theorem region_of_request {s : State} (hI : s.Inv) (h : s.HasRequest a f b2 b3 b4 b5) :
    ∃ data, s.rxBuf.readRange 6 (dataLen s.rxLen) = some data := by
  obtain ⟨bs, hb, -⟩ := hI.rxFrame
  have hn := h.len
  exact ⟨_, Memory.readRange_sub hb 6 _ (by unfold dataLen; omega)⟩

/-- The bytes that a handler's start state and a write from offset 1 or 2 leave at the front of `tx_buf`. -/
theorem readRange_header_error (m : Memory) (a f : Byte) (bs : List Byte) :
    ((m.writes 0 [a, f]).writes 1 bs).readRange 0 (1 + bs.length) = some ([a] ++ bs) :=
  Memory.readRange_append_writes bs (by simp [Memory.readRange, Memory.read_write])

theorem readRange_header_reply (m : Memory) (a f : Byte) (bs : List Byte) :
    ((m.writes 0 [a, f]).writes 2 bs).readRange 0 (2 + bs.length) = some ([a, f] ++ bs) :=
  Memory.readRange_append_writes bs (Memory.readRange_writes m 0 [a, f])

/-- What a handler with that effect keeps. -/
theorem HandlerEffect.keeps {s : State} {r : Handled} (h : HandlerEffect s r) :
    r.state = { s with
      txBuf := r.state.txBuf
      stats := r.state.stats
      answers := r.state.answers
      requests := r.state.requests } := by
  obtain ⟨x, bs, hx, hl, e⟩ := h.state
  rw [e]

/-- After a handler the first `L` bytes of `tx_buf` have values, and the rest is as before the PROCESS. -/
theorem HandlerEffect.body {s : State} {bc : Bool} {r : Handled} (h : HandlerEffect (handlerStart s bc a f) r) :
    (∃ body, r.state.txBuf.readRange 0 r.len = some body) ∧
      ∀ k, r.len ≤ k → r.state.txBuf.read k = s.txBuf.read k := by
  obtain ⟨x, bs, hx, hl, e⟩ := h.state
  have hm := h.lenMin
  rw [e]
  dsimp only [handlerStart]
  refine ⟨?_, fun k hk => ?_⟩
  · rw [hl]
    rcases hx with rfl | rfl
    · exact ⟨_, readRange_header_error ..⟩
    · exact ⟨_, readRange_header_reply ..⟩
  · rw [Memory.read_writes_other _ _ _ _ (by omega), Memory.read_writes_other _ _ _ _ (by simp; omega)]

end Sys2Proof.Machine
end

