-- ==== Sys2Proof/Tests/Slice0.lean ====
section
/-! SUPPORT. Smoke tests of WellFormed, decoding tests, tests of one step each, and one witness per statement that has
hypotheses. Expected values are the spec's (the vectors S1 to S7 and V1 to V74 of `95_test_vectors.md`, the tables of R71,
R84, R85), never the model's own. -/

namespace Sys2Proof.Tests

open Sys2Proof.Machine

/-! ## Helpers -/

/-- An instance just after reset that has ingested `frame`, with the answers its application will give. -/
def awaiting (c : Config) (frame : List Byte) (answers : List Answer) : State :=
  { State.resetOf c with
    rxBuf := Memory.writes [] 0 frame
    rxLen := frame.length
    crc := crc16 frame
    answers := answers }

/-- "answers data". -/
def dataAnswer (l : List Byte) (h : l.length ≤ 255 := by decide) : Answer := ⟨0x00, false, l, 0, h⟩
/-- "answers exception". -/
def exAnswer (e : Byte) : Answer := ⟨e, false, [], 0, by decide⟩
/-- "answers null". -/
def nullAnswer : Answer := ⟨0x00, true, [], 0, by decide⟩
/-- "answers value". -/
def valAnswer (v : Word) : Answer := ⟨0x00, false, [], v, by decide⟩
/-- "answers ok". -/
def okAnswer : Answer := ⟨0x00, false, [], 0, by decide⟩

/-- What a vector of Part 2 tells: result, response, callback requests, counters. -/
structure Report where
  result : Result
  response : Option (List Byte)
  requests : List CbRequest
  stats : Stats
  deriving DecidableEq, Repr

def report : Host.Outcome State Fault Refusal → Option Report
  | .next t =>
    match t.outputs with
    | o :: _ => some ⟨o.result, t.txBuf.readRange 0 t.txLen, t.requests, t.stats⟩
    | [] => none
  | .fault _ => none
  | .refused _ => none

theorem next_of_report {o : Host.Outcome State Fault Refusal} (h : (report o).isSome = true) : ∃ t, o = .next t := by
  cases o with
  | next t => exact ⟨t, rfl⟩
  | fault _ => cases h
  | refused _ => cases h

/-- The configuration of the vectors with no callback bound. -/
def unbound : Config := { Config.vectors with cbBound := ⟨false, false, false, false, false, false, false⟩ }
/-- The configuration of the vectors with the smallest transmit buffer. -/
def smallTx : Config := { Config.vectors with txCap := 8 }
/-- The configuration of the vectors without statistics. -/
def noStats : Config := { Config.vectors with statsEn := false }

/-- The request of S3, the source's example. -/
def s3 (c : Config) (answers : List Answer) : State :=
  awaiting c [0x01, 0x03, 0x12, 0x34, 0x00, 0x05, 0xC1, 0x7F] answers

/-- The error frame of S4 with `rem` bytes still to be drained. -/
def answeredS4 (rem : Nat) : State :=
  { State.reset with txBuf := Memory.writes [] 0 [0x01, 0x83, 0x02, 0xC0, 0xF1], txLen := 5, txRem := rem }

/-- The invariant as a computation. -/
def invCheck (s : State) : Bool :=
  s.cfg.wf && s.rxBuf.wf && s.rxBuf.within s.cfg.rxCap && s.txBuf.wf && s.txBuf.within s.cfg.txCap &&
    decide (s.rxLen < s.cfg.rxCap) &&
    (match s.rxBuf.readRange 0 s.rxLen with
      | some bs => decide (0 < s.rxLen → s.crc = crc16 bs)
      | none => false) &&
    decide (s.txRem ≤ s.txLen) && decide (s.txLen ≤ s.cfg.txCap) && decide (s.txLen ≤ 260) &&
    (match s.txBuf.readRange 0 s.txLen with
      | some bs => decide (0 < s.txLen → 5 ≤ s.txLen ∧ crc16 bs = 0x0000)
      | none => false) &&
    decide (s.stats.seen < 2 ^ s.cfg.statW) && decide (s.stats.addressed < 2 ^ s.cfg.statW) &&
    decide (s.stats.ok < 2 ^ s.cfg.statW) && decide (s.stats.err < 2 ^ s.cfg.statW) &&
    decide (s.stats.invalid < 2 ^ s.cfg.statW) && decide (s.cfg.statsEn = false → s.stats = Stats.zero)

theorem inv_of_check {s : State} (h : invCheck s = true) : s.Inv := by
  simp only [invCheck, Bool.and_eq_true, decide_eq_true_eq] at h
  obtain ⟨⟨⟨⟨⟨⟨⟨⟨⟨⟨⟨⟨⟨⟨⟨⟨h1, h2⟩, h3⟩, h4⟩, h5⟩, h6⟩, h7⟩, h8⟩, h9⟩, h10⟩, h11⟩, h12⟩, h13⟩, h14⟩, h15⟩, h16⟩, h17⟩ := h
  refine ⟨h1, h2, h3, h4, h5, h6, ?_, h8, h9, h10, ?_, ?_, h17⟩
  · split at h7
    · next bs hb => exact ⟨bs, hb, of_decide_eq_true h7⟩
    · cases h7
  · split at h11
    · next bs hb => exact ⟨bs, hb, of_decide_eq_true h11⟩
    · cases h11
  · intro i; cases i <;> assumption

/-- An accepted request as a computation. -/
def requestCheck (s : State) (a f b2 b3 b4 b5 : Byte) : Bool :=
  s.cfg.ctxBound && decide (7 ≤ s.rxLen) && decide (s.crc = 0x0000) &&
    decide (s.rxBuf.readRange 0 6 = some [a, f, b2, b3, b4, b5])

theorem accepted_of_check {s : State} {a f b2 b3 b4 b5 : Byte}
    (h : (invCheck s && requestCheck s a f b2 b3 b4 b5) = true) : s.Inv ∧ s.HasRequest a f b2 b3 b4 b5 := by
  simp only [requestCheck, Bool.and_eq_true, decide_eq_true_eq] at h
  obtain ⟨hI, ⟨⟨h1, h2⟩, h3⟩, h4⟩ := h
  exact ⟨inv_of_check hI, h1, h2, h3, h4⟩

/-! ## WellFormed refuses each ill-formed term -/

theorem test_wf_vectors : Config.vectors.wf = true := by decide
theorem test_wf_rxCap_low : Config.wf { Config.vectors with rxCap := 0 } = false := by decide
theorem test_wf_rxCap_high : Config.wf { Config.vectors with rxCap := 65536 } = false := by decide
theorem test_wf_txCap_low : Config.wf { Config.vectors with txCap := 7 } = false := by decide
theorem test_wf_txCap_high : Config.wf { Config.vectors with txCap := 65536 } = false := by decide
theorem test_wf_statBase : Config.wf { Config.vectors with statBase := 0xFFFC } = false := by decide
theorem test_wf_statW : Config.wf { Config.vectors with statW := 15 } = false := by decide
theorem test_wf_codes : Config.wf { Config.vectors with fc := { FuncCodes.default with rh := 0x10 } } = false := by
  decide
theorem test_wf_stat_needs_counters :
    ([Instr.diagStatSeen, .diagStatAddressed, .diagStatOk, .diagStatErr, .diagStatInvalid].map (Instr.wf noStats)) =
      [false, false, false, false, false] := by decide
theorem test_wf_stat_seen_needs_base : Instr.diagStatSeen.wf { Config.vectors with statBase := 0 } = false := by decide
theorem test_wf_user_echo : (Instr.diagUser 0x0000).wf Config.vectors = false := by decide
theorem test_wf_user_stat : (Instr.diagUser 0x0104).wf Config.vectors = false := by decide
theorem test_wf_user_unbound : (Instr.diagUser 0x0105).wf unbound = false := by decide
theorem test_wf_unbound_echo : (Instr.diagUnbound 0x0000).wf unbound = false := by decide
theorem test_wf_unbound_bound : (Instr.diagUnbound 0x0105).wf Config.vectors = false := by decide
theorem test_wf_unrecognized : (Instr.unrecognized 0x03).wf Config.vectors = false := by decide

/-! ## Decoding: every constructor, by words of R71, R84, R85 and of the opcode table -/

theorem test_decode_nop : decode .vectors (.command 0b00 0xFF) = .ok .nop := by decide
theorem test_decode_ingest : decode .vectors (.command 0b01 0xA5) = .ok (.ingest 0xA5) := by decide
theorem test_decode_process : decode .vectors (.command 0b10 0xFF) = .ok .process := by decide
theorem test_decode_drain : decode .vectors (.command 0b11 0xFF) = .ok .drain := by decide
theorem test_decode_read_coils : decode .vectors (.request [0b00000001, 0x00, 0x13]) = .ok .readCoils := by decide
theorem test_decode_read_inputs : decode .vectors (.request [0b00000010, 0x00, 0xC4]) = .ok .readInputs := by decide
theorem test_decode_read_holding :
    decode .vectors (.request [0b00000011, 0x12, 0x34]) = .ok .readHoldingRegisters := by decide
theorem test_decode_write_single :
    decode .vectors (.request [0b00000110, 0x00, 0x01]) = .ok .writeSingleRegister := by decide
theorem test_decode_write_coils :
    decode .vectors (.request [0b00001111, 0x00, 0x13]) = .ok .writeMultipleCoils := by decide
theorem test_decode_write_registers :
    decode .vectors (.request [0b00010000, 0x00, 0x01]) = .ok .writeMultipleRegisters := by decide
theorem test_decode_diag_echo : decode .vectors (.request [0b00001000, 0x00, 0x00]) = .ok .diagEcho := by decide
theorem test_decode_diag_stats :
    ([0x00, 0x01, 0x02, 0x03, 0x04].map fun lo : Byte => (decode .vectors (.request [0x08, 0x01, lo])).toOption) =
      [some .diagStatSeen, some .diagStatAddressed, some .diagStatOk, some .diagStatErr, some .diagStatInvalid] := by
  decide
theorem test_decode_diag_user : decode .vectors (.request [0x08, 0x00, 0xFF]) = .ok (.diagUser 0x00FF) := by decide
theorem test_decode_diag_user_high : decode .vectors (.request [0x08, 0x01, 0x05]) = .ok (.diagUser 0x0105) := by
  decide
theorem test_decode_diag_unbound : decode unbound (.request [0x08, 0x01, 0x05]) = .ok (.diagUnbound 0x0105) := by
  decide
/-- R29: without counters the range is not recognised. -/
theorem test_decode_diag_no_stats : decode noStats (.request [0x08, 0x01, 0x00]) = .ok (.diagUser 0x0100) := by decide
/-- D34: with a base of 0 the echo test wins, and offset 1 is sub-function 1. -/
theorem test_decode_diag_base_zero :
    decode { Config.vectors with statBase := 0 } (.request [0x08, 0x00, 0x00]) = .ok .diagEcho ∧
    decode { Config.vectors with statBase := 0 } (.request [0x08, 0x00, 0x01]) = .ok .diagStatAddressed := by decide
/-- R86: 0x00 and codes with bit 7 set are unrecognized. -/
theorem test_decode_unrecognized :
    decode .vectors (.request [0x00, 0, 0]) = .ok (.unrecognized 0x00) ∧
    decode .vectors (.request [0x83, 0, 0]) = .ok (.unrecognized 0x83) := by decide
theorem test_decode_no_bytes : decode .vectors (.request []) = .error .noFunctionCode := by decide
theorem test_decode_no_subfunction : decode .vectors (.request [0x08, 0x00]) = .error .noSubfunction := by decide

/-- The opcode table's words, by their `match`: the commands, then the function codes as 24-bit and 8-bit words. -/
theorem test_table_commands :
    [0, 1, 2, 3].map (decodeTableWord 8) = [some .nop, some (.ingest 0), some .process, some .drain] ∧
    decodeTableWord 16 0b1010010101 = some (.ingest 0xA5) := by decide
theorem test_table_codes :
    [0x010000, 0x020000, 0x030000].map (decodeTableWord 24) =
      [some .readCoils, some .readInputs, some .readHoldingRegisters] ∧
    [0x06, 0x0F, 0x10, 0x11].map (decodeTableWord 8) =
      [some .writeSingleRegister, some .writeMultipleCoils, some .writeMultipleRegisters, some (.unrecognized 0x11)] := by
  decide
theorem test_table_diag :
    [0x080000, 0x080100, 0x080101, 0x080102, 0x080103, 0x080104, 0x08FFFF].map (decodeTableWord 24) =
      [some .diagEcho, some .diagStatSeen, some .diagStatAddressed, some .diagStatOk, some .diagStatErr,
        some .diagStatInvalid, some (.diagUser 0xFFFF)] := by decide

/-- A command word placed where the step fetches it runs: the first INGEST of a frame (R110, V2's CRC). -/
theorem test_fetch_ingest :
    (match step (State.reset.withFetchWord 8 1) with
      | .next t => some (t.rxLen, t.crc, t.pending)
      | _ => none) = some (1, 0x40BF, []) := by decide +kernel
/-- A function word placed where the step fetches it runs: the error frame of V63's code. -/
theorem test_fetch_unrecognized :
    (match step (State.reset.withFetchWord 8 0x04) with
      | .next t => t.txBuf.readRange 0 3
      | _ => none) = some [0x01, 0x84, 0x01] := by decide +kernel

/-! ## CRC engine (V1 to V13) -/

theorem test_crc_add :
    [crc16Add 0x01 0xFFFF, crc16Add 0x00 0xFFFF, crc16Add 0xFF 0xFFFF, crc16Add 0x00 0x0000, crc16Add 0x01 0x0000,
      crc16Add 0xFF 0x0000, crc16Add 0x80 0x0000, crc16Add 0x00 0x8000, crc16Add 0x00 0x0001, crc16Add 0x02 0x0001,
      crc16Add 0xA5 0x1234] =
    [0x807E, 0x40BF, 0x00FF, 0x0000, 0xC0C1, 0x4040, 0xA001, 0x0080, 0xC0C1, 0x0140, 0xACD3] := by decide +kernel
theorem test_crc_table_form :
    [crc16AddTable 0x01 0xFFFF, crc16AddTable 0xFF 0xFFFF, crc16AddTable 0xA5 0x1234] = [0x807E, 0x00FF, 0xACD3] := by
  decide +kernel
theorem test_crc_check_value :
    crc16By .table [0x31, 0x32, 0x33, 0x34, 0x35, 0x36, 0x37, 0x38, 0x39] = 0x4B37 ∧ crc16 [] = 0xFFFF := by
  decide +kernel

/-! ## Memory -/

theorem test_write_keeps_order : Memory.write [(1, 0xAA), (5, 0xBB)] 3 0xCC = [(1, 0xAA), (3, 0xCC), (5, 0xBB)] := by
  decide
theorem test_write_replaces : Memory.write [(1, 0xAA), (5, 0xBB)] 5 0xCC = [(1, 0xAA), (5, 0xCC)] := by decide
theorem test_wf_refuses_disorder : Memory.wf [(5, 0xBB), (1, 0xAA)] = false := by decide
theorem test_wf_refuses_repeats : Memory.wf [(1, 0xBB), (1, 0xAA)] = false := by decide

/-! ## One step of each instruction -/

/-- V74. -/
theorem test_nop : report (exec .nop State.reset) = some ⟨.ok, some [], [], ⟨0, 0, 0, 0, 0⟩⟩ := by decide +kernel
/-- V17: the overflow comes after the store and resets the fill length. -/
theorem test_ingest_overflow :
    (match exec (.ingest 0x01) { State.resetOf { Config.vectors with rxCap := 9 } with rxLen := 8 } with
      | .next t => some (t.outputs, t.rxBuf, t.rxLen)
      | _ => none) = some ([⟨.errRxOverflow, 0x00⟩], [(8, 0x01)], 0) := by decide +kernel
/-- V19: a stale CRC plays no part in the first byte of a frame. -/
theorem test_ingest_reseeds :
    (match exec (.ingest 0x01) { State.reset with crc := 0x1234 } with
      | .next t => some (t.crc, t.rxLen)
      | _ => none) = some (0x807E, 1) := by decide +kernel
/-- V72: the last byte. -/
theorem test_drain_last :
    (match exec .drain (answeredS4 1) with
      | .next t => some (t.outputs, t.txRem)
      | _ => none) = some ([⟨.ok, 0xF1⟩], 0) := by decide +kernel
/-- V73. -/
theorem test_drain_ended :
    (match exec .drain (answeredS4 0) with
      | .next t => some (t.outputs, t.txRem)
      | _ => none) = some ([⟨.msgEnded, 0x00⟩], 0) := by decide +kernel
/-- S3. -/
theorem test_process_s3 :
    report (exec .process (s3 .vectors [dataAnswer [0x55, 0x66]])) =
      some ⟨.ok, some [0x01, 0x03, 0x02, 0x55, 0x66, 0x07, 0x3E], [⟨.rh, 0x1234, 0x0005, []⟩], ⟨1, 1, 1, 0, 0⟩⟩ := by
  decide +kernel
/-- V68: with `ADDRESS = 0` a write to address 0 is unicast. -/
theorem test_process_address_zero :
    report (exec .process (awaiting { Config.vectors with address := 0x00 }
      [0x00, 0x10, 0x00, 0x01, 0x00, 0x01, 0x02, 0x00, 0x09, 0x6A, 0x17] [okAnswer])) =
      some ⟨.ok, some [0x00, 0x10, 0x00, 0x01, 0x00, 0x01, 0x51, 0xD8],
        [⟨.wmr, 0x0001, 0x0001, [0x02, 0x00, 0x09]⟩], ⟨1, 1, 1, 0, 0⟩⟩ := by decide +kernel
/-- V21. -/
theorem test_read_coils :
    report (exec .readCoils (awaiting .vectors [0x01, 0x01, 0x00, 0x13, 0x00, 0x25, 0x0C, 0x14]
      [dataAnswer [0xCD, 0x6B, 0xB2, 0x0E, 0x1B]])) =
      some ⟨.ok, some [0x01, 0x01, 0x05, 0xCD, 0x6B, 0xB2, 0x0E, 0x1B, 0x44, 0xEA], [⟨.rc, 0x0013, 0x0025, []⟩],
        ⟨1, 1, 1, 0, 0⟩⟩ := by decide +kernel
/-- V25. -/
theorem test_read_coils_unbound :
    report (exec .readCoils (awaiting unbound [0x01, 0x01, 0x00, 0x13, 0x00, 0x25, 0x0C, 0x14] [])) =
      some ⟨.answeredError, some [0x01, 0x81, 0x01, 0x81, 0x90], [], ⟨1, 1, 0, 1, 1⟩⟩ := by decide +kernel
/-- V22. -/
theorem test_read_inputs :
    report (exec .readInputs (awaiting .vectors [0x01, 0x02, 0x00, 0xC4, 0x00, 0x16, 0xB8, 0x39]
      [dataAnswer [0xAC, 0xDB, 0x35]])) =
      some ⟨.ok, some [0x01, 0x02, 0x03, 0xAC, 0xDB, 0x35, 0x22, 0x88], [⟨.ri, 0x00C4, 0x0016, []⟩],
        ⟨1, 1, 1, 0, 0⟩⟩ := by decide +kernel
/-- V28. -/
theorem test_read_holding_null :
    report (exec .readHoldingRegisters (s3 .vectors [nullAnswer])) =
      some ⟨.answeredError, some [0x01, 0x83, 0x04, 0x40, 0xF3], [⟨.rh, 0x1234, 0x0005, []⟩], ⟨1, 1, 0, 1, 0⟩⟩ := by
  decide +kernel
/-- V34 and V35: the last answer that fits, and the first that does not. -/
theorem test_read_holding_fit :
    report (exec .readHoldingRegisters (s3 smallTx [dataAnswer [0x01, 0x02, 0x03]])) =
      some ⟨.ok, some [0x01, 0x03, 0x03, 0x01, 0x02, 0x03, 0x55, 0x2F], [⟨.rh, 0x1234, 0x0005, []⟩],
        ⟨1, 1, 1, 0, 0⟩⟩ ∧
    report (exec .readHoldingRegisters (s3 smallTx [dataAnswer [0x01, 0x02, 0x03, 0x04]])) =
      some ⟨.answeredError, some [0x01, 0x83, 0x02, 0xC0, 0xF1], [⟨.rh, 0x1234, 0x0005, []⟩], ⟨1, 1, 0, 1, 0⟩⟩ := by
  decide +kernel
/-- V50. -/
theorem test_write_single :
    report (exec .writeSingleRegister (awaiting .vectors [0x01, 0x06, 0x00, 0x01, 0x00, 0x03, 0x98, 0x0B]
      [okAnswer])) =
      some ⟨.ok, some [0x01, 0x06, 0x00, 0x01, 0x00, 0x03, 0x98, 0x0B], [⟨.wsr, 0x0001, 0x0003, []⟩],
        ⟨1, 1, 1, 0, 0⟩⟩ := by decide +kernel
/-- V51. -/
theorem test_write_coils :
    report (exec .writeMultipleCoils (awaiting .vectors
      [0x01, 0x0F, 0x00, 0x13, 0x00, 0x0A, 0x02, 0xCD, 0x01, 0x72, 0xCB] [okAnswer])) =
      some ⟨.ok, some [0x01, 0x0F, 0x00, 0x13, 0x00, 0x0A, 0x24, 0x09],
        [⟨.wmc, 0x0013, 0x000A, [0x02, 0xCD, 0x01]⟩], ⟨1, 1, 1, 0, 0⟩⟩ := by decide +kernel
/-- V53. -/
theorem test_write_registers_exception :
    report (exec .writeMultipleRegisters (awaiting .vectors
      [0x01, 0x10, 0x00, 0x01, 0x00, 0x02, 0x04, 0x00, 0x0A, 0x01, 0x02, 0x92, 0x30] [exAnswer 0x03])) =
      some ⟨.answeredError, some [0x01, 0x90, 0x03, 0x0C, 0x01],
        [⟨.wmr, 0x0001, 0x0002, [0x04, 0x00, 0x0A, 0x01, 0x02]⟩], ⟨1, 1, 0, 1, 0⟩⟩ := by decide +kernel
/-- V23: a broadcast invokes the callback and sends nothing. -/
theorem test_write_registers_broadcast :
    report (exec .writeMultipleRegisters (awaiting .vectors
      [0x00, 0x10, 0x00, 0x01, 0x00, 0x02, 0x04, 0x00, 0x0A, 0x01, 0x02, 0x96, 0xCC] [okAnswer])) =
      some ⟨.ok, some [], [⟨.wmr, 0x0001, 0x0002, [0x04, 0x00, 0x0A, 0x01, 0x02]⟩], ⟨1, 0, 0, 0, 0⟩⟩ := by
  decide +kernel
/-- V40. -/
theorem test_diag_echo :
    report (exec .diagEcho (awaiting unbound [0x01, 0x08, 0x00, 0x00, 0xA5, 0x37, 0xDA, 0x8D] [])) =
      some ⟨.ok, some [0x01, 0x08, 0x00, 0x00, 0xA5, 0x37, 0xDA, 0x8D], [], ⟨1, 1, 1, 0, 0⟩⟩ := by decide +kernel
/-- V41. -/
theorem test_diag_stat_seen :
    report (exec .diagStatSeen { awaiting .vectors [0x01, 0x08, 0x01, 0x00, 0x00, 0x00, 0xE1, 0xF7] [] with
      stats := ⟨2, 1, 1, 0, 1⟩ }) =
      some ⟨.ok, some [0x01, 0x08, 0x01, 0x00, 0x00, 0x02, 0x60, 0x36], [], ⟨3, 2, 2, 0, 1⟩⟩ := by decide +kernel
/-- V60: wrap. -/
theorem test_diag_stat_wrap :
    report (exec .diagStatSeen { awaiting .vectors [0x01, 0x08, 0x01, 0x00, 0x00, 0x00, 0xE1, 0xF7] [] with
      stats := ⟨0xFFFF, 0xFFFF, 0xFFFF, 0xFFFF, 0xFFFF⟩ }) =
      some ⟨.ok, some [0x01, 0x08, 0x01, 0x00, 0xFF, 0xFF, 0xE0, 0x47], [], ⟨0, 0, 0, 0xFFFF, 0xFFFF⟩⟩ := by
  decide +kernel
/-- V42: offset 1 already counts this frame. -/
theorem test_diag_stat_addressed :
    report (exec .diagStatAddressed { awaiting .vectors [0x01, 0x08, 0x01, 0x01, 0x00, 0x00, 0xB0, 0x37] [] with
      stats := ⟨2, 1, 1, 0, 1⟩ }) =
      some ⟨.ok, some [0x01, 0x08, 0x01, 0x01, 0x00, 0x02, 0x31, 0xF6], [], ⟨3, 2, 2, 0, 1⟩⟩ := by decide +kernel
/-- V43: offset 2 does not yet count this frame. -/
theorem test_diag_stat_ok :
    report (exec .diagStatOk { awaiting .vectors [0x01, 0x08, 0x01, 0x02, 0x00, 0x00, 0x40, 0x37] [] with
      stats := ⟨2, 1, 1, 0, 1⟩ }) =
      some ⟨.ok, some [0x01, 0x08, 0x01, 0x02, 0x00, 0x01, 0x81, 0xF7], [], ⟨3, 2, 2, 0, 1⟩⟩ := by decide +kernel
/-- V45. -/
theorem test_diag_stat_err :
    report (exec .diagStatErr { awaiting .vectors [0x01, 0x08, 0x01, 0x03, 0x00, 0x00, 0x11, 0xF7] [] with
      stats := ⟨2, 1, 1, 0, 1⟩ }) =
      some ⟨.ok, some [0x01, 0x08, 0x01, 0x03, 0x00, 0x00, 0x11, 0xF7], [], ⟨3, 2, 2, 0, 1⟩⟩ := by decide +kernel
/-- V46. -/
theorem test_diag_stat_invalid :
    report (exec .diagStatInvalid { awaiting .vectors [0x01, 0x08, 0x01, 0x04, 0x00, 0x00, 0xA0, 0x36] [] with
      stats := ⟨2, 1, 1, 0, 1⟩ }) =
      some ⟨.ok, some [0x01, 0x08, 0x01, 0x04, 0x00, 0x01, 0x61, 0xF6], [], ⟨3, 2, 2, 0, 1⟩⟩ := by decide +kernel
/-- V48. -/
theorem test_diag_user :
    report (exec (.diagUser 0x0002) (awaiting .vectors [0x01, 0x08, 0x00, 0x02, 0x12, 0x34, 0x4C, 0xBC]
      [valAnswer 0xBEEF])) =
      some ⟨.ok, some [0x01, 0x08, 0x00, 0x02, 0xBE, 0xEF, 0x71, 0xE7], [⟨.diag, 0x0002, 0x1234, []⟩],
        ⟨1, 1, 1, 0, 0⟩⟩ := by decide +kernel
/-- V44. -/
theorem test_diag_unbound :
    report (exec (.diagUnbound 0x0002) (awaiting unbound [0x01, 0x08, 0x00, 0x02, 0x12, 0x34, 0x4C, 0xBC] [])) =
      some ⟨.answeredError, some [0x01, 0x88, 0x01, 0x87, 0xC0], [], ⟨1, 1, 0, 1, 1⟩⟩ := by decide +kernel
/-- V64: a code with bit 7 set keeps it. -/
theorem test_unrecognized :
    report (exec (.unrecognized 0x83) (awaiting .vectors [0x01, 0x83, 0x00, 0x00, 0x00, 0x00, 0x44, 0x14] [])) =
      some ⟨.answeredError, some [0x01, 0x83, 0x01, 0x80, 0xF0], [], ⟨1, 1, 0, 1, 0⟩⟩ := by decide +kernel

/-! ## Witnesses: for every statement with hypotheses, a state and operands that meet them together -/

theorem witness_CrcStrategyIsInvisible :
    ∃ t, step { s3 .vectors [dataAnswer [0x55, 0x66]] with pending := [.command 2 0x00] } = .next t :=
  next_of_report (by decide +kernel)
theorem witness_DecodeOfEncode :
    Config.vectors.wf = true ∧ unbound.wf = true ∧ (Instr.diagUser 0xFFFF).wf .vectors = true ∧
    (Instr.diagUser 0x0001).wf .vectors = true ∧ (Instr.diagUser 0x00FF).wf .vectors = true ∧
    (Instr.diagUnbound 0x0105).wf unbound = true ∧ (Instr.unrecognized 0xFF).wf .vectors = true ∧
    Instr.diagStatSeen.wf .vectors = true := by decide
theorem witness_EveryCodeHasItsRow : Config.vectors.wf = true := by decide
theorem witness_FieldsAreBigEndian :
    62 + 1 < Config.vectors.rxCap ∧ Memory.read [(62, 0x12), (63, 0x34)] 62 = some 0x12 ∧
    Memory.read [(62, 0x12), (63, 0x34)] (62 + 1) = some 0x34 ∧ 62 + 1 < Config.vectors.txCap := by decide
theorem witness_IngestStoresFoldsAndCounts :
    State.reset.rxLen < State.reset.cfg.rxCap ∧
    State.rxLen { State.reset with rxLen := 63 } < State.reset.cfg.rxCap := by decide
theorem witness_IngestsAccumulateTheFrame :
    State.reset.rxLen = 0 ∧ [(0x01 : Byte)] ≠ [] ∧ [(0x01 : Byte)].length < State.reset.cfg.rxCap ∧
    (List.replicate 63 (0x01 : Byte)).length < State.reset.cfg.rxCap := by decide
theorem witness_IngestsOverflowAtCapacity :
    (State.resetOf { Config.vectors with rxCap := 1 }).rxLen = 0 ∧
    1 ≤ (State.resetOf { Config.vectors with rxCap := 1 }).cfg.rxCap ∧
    [(0x05 : Byte)].length = (State.resetOf { Config.vectors with rxCap := 1 }).cfg.rxCap := by decide
theorem witness_DrainReturnsNextByte :
    (answeredS4 0).txRem = 0 ∧
    (0 < (answeredS4 1).txRem ∧ (answeredS4 1).txRem ≤ (answeredS4 1).txLen ∧
      (answeredS4 1).txLen ≤ (answeredS4 1).cfg.txCap ∧
      (answeredS4 1).txBuf.read ((answeredS4 1).txLen - (answeredS4 1).txRem) = some 0xF1) ∧
    (answeredS4 5).txRem ≤ (answeredS4 5).txLen ∧
    (answeredS4 5).txBuf.read ((answeredS4 5).txLen - (answeredS4 5).txRem) = some 0x01 := by decide
theorem witness_DrainsReturnTheFrameInWireOrder :
    (answeredS4 5).Inv ∧ (answeredS4 5).txBuf.readRange 0 (answeredS4 5).txLen = some [0x01, 0x83, 0x02, 0xC0, 0xF1] :=
  ⟨inv_of_check (by decide +kernel), by decide⟩
theorem witness_IngestAndDrainCommute : (answeredS4 3).Inv ∧ (answeredS4 0).Inv :=
  ⟨inv_of_check (by decide +kernel), inv_of_check (by decide +kernel)⟩

theorem witness_NullContextReturnsErrNull :
    runsProcess .process = true ∧ (s3 { Config.vectors with ctxBound := false } []).cfg.ctxBound = false := by decide
theorem witness_ShortFrameIsDropped :
    runsProcess .process = true ∧
    (awaiting .vectors [0x01, 0x03, 0x00, 0x00, 0xF1, 0xD8] []).cfg.ctxBound = true ∧
    (awaiting .vectors [0x01, 0x03, 0x00, 0x00, 0xF1, 0xD8] []).rxLen < 7 ∧ State.reset.rxLen < 7 := by decide
theorem witness_BadCrcIsDropped :
    runsProcess .process = true ∧
    (awaiting .vectors [0x01, 0x03, 0x12, 0x34, 0x00, 0x05, 0xC1, 0x80] []).cfg.ctxBound = true ∧
    7 ≤ (awaiting .vectors [0x01, 0x03, 0x12, 0x34, 0x00, 0x05, 0xC1, 0x80] []).rxLen ∧
    (awaiting .vectors [0x01, 0x03, 0x12, 0x34, 0x00, 0x05, 0xC1, 0x80] []).crc ≠ 0x0000 := by decide +kernel
theorem witness_OtherAddressIsDropped :
    runsProcess .process = true ∧
    ((awaiting .vectors [0x02, 0x03, 0x12, 0x34, 0x00, 0x05, 0xC1, 0x4C] []).Inv ∧
      (awaiting .vectors [0x02, 0x03, 0x12, 0x34, 0x00, 0x05, 0xC1, 0x4C] []).HasRequest 0x02 0x03 0x12 0x34 0x00 0x05) ∧
    (0x02 : Byte) ≠ Config.vectors.address ∧ (0x02 : Byte) ≠ 0x00 :=
  ⟨rfl, accepted_of_check (by decide +kernel), by decide, by decide⟩
theorem witness_OtherBroadcastIsDropped :
    runsProcess .process = true ∧
    ((awaiting .vectors [0x00, 0x06, 0x00, 0x01, 0x00, 0x03, 0x99, 0xDA] []).Inv ∧
      (awaiting .vectors [0x00, 0x06, 0x00, 0x01, 0x00, 0x03, 0x99, 0xDA] []).HasRequest 0x00 0x06 0x00 0x01 0x00 0x03) ∧
    Config.vectors.address ≠ 0x00 ∧ (0x06 : Byte) ≠ Config.vectors.fc.wmr :=
  ⟨rfl, accepted_of_check (by decide +kernel), by decide, by decide⟩

theorem witness_ProcessRunsTheDecodedFunction :
    ((s3 .vectors []).Inv ∧ (s3 .vectors []).HasRequest 0x01 0x03 0x12 0x34 0x00 0x05) ∧
    decode (s3 .vectors []).cfg (.request [0x03, 0x12, 0x34]) = .ok .readHoldingRegisters :=
  ⟨accepted_of_check (by decide +kernel), by decide⟩
theorem witness_ProcessConsumesTheFrame : runsProcess .process = true ∧ ∃ t, exec .process (s3 unbound []) = .next t :=
  ⟨rfl, next_of_report (by decide +kernel)⟩
theorem witness_RepeatedProcessIsTooShort :
    ∃ t, exec .process (State.resetOf .vectors) = .next t ∧ t.cfg.ctxBound = true :=
  ⟨_, rfl, rfl⟩
/-- V38: the shortest accepted frame. -/
theorem witness_UnicastFrameIsAnswered :
    runsProcess .process = true ∧
    ((awaiting .vectors [0x01, 0x03, 0x00, 0x00, 0x00, 0x19, 0x84] []).Inv ∧
      (awaiting .vectors [0x01, 0x03, 0x00, 0x00, 0x00, 0x19, 0x84] []).HasRequest 0x01 0x03 0x00 0x00 0x00 0x19) :=
  ⟨rfl, accepted_of_check (by decide +kernel)⟩

/-- V35 (the longest answer that fits) and V29 (the shortest). -/
theorem witness_ReadAnswersTheData :
    (.readHoldingRegisters, .rh) ∈ readRows ∧
    ((s3 smallTx [dataAnswer [0x01, 0x02, 0x03]]).Inv ∧
      (s3 smallTx [dataAnswer [0x01, 0x02, 0x03]]).HasRequest 0x01 0x03 0x12 0x34 0x00 0x05) ∧
    smallTx.cbBound.bound .rh = true ∧
    (∀ x ∈ [dataAnswer [0x01, 0x02, 0x03], dataAnswer []],
      x.ex = 0x00 ∧ x.isNull = false ∧ 3 + x.data.length + 2 ≤ smallTx.txCap) :=
  ⟨by decide, accepted_of_check (by decide +kernel), by decide, by decide⟩
/-- S4, V28, V34: one answer for each clause. -/
theorem witness_ReadAnswersTheException :
    (.readHoldingRegisters, .rh) ∈ readRows ∧
    ((s3 smallTx [exAnswer 0x02]).Inv ∧ (s3 smallTx [exAnswer 0x02]).HasRequest 0x01 0x03 0x12 0x34 0x00 0x05) ∧
    smallTx.cbBound.bound .rh = true ∧ (exAnswer 0x02).ex ≠ 0x00 ∧
    (nullAnswer.ex = 0x00 ∧ nullAnswer.isNull = true) ∧
    ((dataAnswer [0x01, 0x02, 0x03, 0x04]).ex = 0x00 ∧ (dataAnswer [0x01, 0x02, 0x03, 0x04]).isNull = false ∧
      smallTx.txCap < 3 + (dataAnswer [0x01, 0x02, 0x03, 0x04]).data.length + 2) :=
  ⟨by decide, accepted_of_check (by decide +kernel), by decide, by decide, by decide, by decide⟩
/-- V57 (no data region) and V51 (a data region). -/
theorem witness_WriteEchoesTheRequest :
    ((.writeMultipleRegisters, .wmr) ∈ writeRows ∧
      ((awaiting .vectors [0x01, 0x10, 0x00, 0x01, 0x00, 0x1C, 0x90] [okAnswer]).Inv ∧
        (awaiting .vectors [0x01, 0x10, 0x00, 0x01, 0x00, 0x1C, 0x90] [okAnswer]).HasRequest
          0x01 0x10 0x00 0x01 0x00 0x1C) ∧
      Memory.readRange (Memory.writes [] 0 [0x01, 0x10, 0x00, 0x01, 0x00, 0x1C, 0x90]) 6 (7 - 8) = some [] ∧
      Config.vectors.cbBound.bound .wmr = true ∧ okAnswer.ex = 0x00) ∧
    ((.writeMultipleCoils, .wmc) ∈ writeRows ∧
      Memory.readRange
        (Memory.writes [] 0 [0x01, 0x0F, 0x00, 0x13, 0x00, 0x0A, 0x02, 0xCD, 0x01, 0x72, 0xCB]) 6 (11 - 8) =
          some [0x02, 0xCD, 0x01]) :=
  ⟨⟨by decide, accepted_of_check (by decide +kernel), by decide, by decide, by decide⟩, by decide, by decide +kernel⟩
theorem witness_WriteAnswersTheException :
    (.writeMultipleRegisters, .wmr) ∈ writeRows ∧
    ((awaiting .vectors [0x01, 0x10, 0x00, 0x01, 0x00, 0x1C, 0x90] [exAnswer 0x03]).Inv ∧
      (awaiting .vectors [0x01, 0x10, 0x00, 0x01, 0x00, 0x1C, 0x90] [exAnswer 0x03]).HasRequest
        0x01 0x10 0x00 0x01 0x00 0x1C) ∧
    Memory.readRange (Memory.writes [] 0 [0x01, 0x10, 0x00, 0x01, 0x00, 0x1C, 0x90]) 6 (7 - 8) = some [] ∧
    Config.vectors.cbBound.bound .wmr = true ∧ (exAnswer 0x03).ex ≠ 0x00 :=
  ⟨by decide, accepted_of_check (by decide +kernel), by decide, by decide, by decide⟩
/-- V14 and V44: one instruction for each clause. -/
theorem witness_UnboundIsIllegalFunction :
    ((s3 unbound []).Inv ∧ (s3 unbound []).HasRequest 0x01 0x03 0x12 0x34 0x00 0x05) ∧
    (∃ p ∈ readRows ++ writeRows, Instr.readHoldingRegisters = p.1 ∧ unbound.cbBound.bound p.2 = false) ∧
    (∃ p ∈ readRows ++ writeRows, Instr.writeMultipleCoils = p.1 ∧ unbound.cbBound.bound p.2 = false) ∧
    (∃ subfn, Instr.diagUnbound 0x0002 = .diagUnbound subfn) :=
  ⟨accepted_of_check (by decide +kernel), ⟨(.readHoldingRegisters, .rh), by decide, rfl, rfl⟩,
    ⟨(.writeMultipleCoils, .wmc), by decide, rfl, rfl⟩, 0x0002, rfl⟩
theorem witness_UnrecognizedIsIllegalFunction :
    (awaiting .vectors [0x01, 0x04, 0x00, 0x08, 0x00, 0x01, 0xB0, 0x08] []).Inv ∧
    (awaiting .vectors [0x01, 0x04, 0x00, 0x08, 0x00, 0x01, 0xB0, 0x08] []).HasRequest 0x01 0x04 0x00 0x08 0x00 0x01 :=
  accepted_of_check (by decide +kernel)
theorem witness_DiagEchoEchoes :
    (awaiting .vectors [0x01, 0x08, 0x00, 0x00, 0xA5, 0x37, 0xDA, 0x8D] []).Inv ∧
    (awaiting .vectors [0x01, 0x08, 0x00, 0x00, 0xA5, 0x37, 0xDA, 0x8D] []).HasRequest 0x01 0x08 0x00 0x00 0xA5 0x37 :=
  accepted_of_check (by decide +kernel)
theorem witness_DiagStatReadsTheCounter :
    (.diagStatInvalid, .invalid) ∈ statRows ∧
    (awaiting .vectors [0x01, 0x08, 0x01, 0x04, 0x00, 0x00, 0xA0, 0x36] []).Inv ∧
    (awaiting .vectors [0x01, 0x08, 0x01, 0x04, 0x00, 0x00, 0xA0, 0x36] []).HasRequest 0x01 0x08 0x01 0x04 0x00 0x00 :=
  ⟨by decide, accepted_of_check (by decide +kernel)⟩
theorem witness_DiagUserAnswersTheValue :
    ((awaiting .vectors [0x01, 0x08, 0x00, 0x02, 0x12, 0x34, 0x4C, 0xBC] [valAnswer 0xBEEF]).Inv ∧
      (awaiting .vectors [0x01, 0x08, 0x00, 0x02, 0x12, 0x34, 0x4C, 0xBC] [valAnswer 0xBEEF]).HasRequest
        0x01 0x08 0x00 0x02 0x12 0x34) ∧
    (awaiting .vectors [0x01, 0x08, 0x00, 0x02, 0x12, 0x34, 0x4C, 0xBC] [valAnswer 0xBEEF]).nextAnswer.ex = 0x00 :=
  ⟨accepted_of_check (by decide +kernel), rfl⟩
theorem witness_DiagUserAnswersTheException :
    ((awaiting .vectors [0x01, 0x08, 0x00, 0x02, 0x12, 0x34, 0x4C, 0xBC] [exAnswer 0x06]).Inv ∧
      (awaiting .vectors [0x01, 0x08, 0x00, 0x02, 0x12, 0x34, 0x4C, 0xBC] [exAnswer 0x06]).HasRequest
        0x01 0x08 0x00 0x02 0x12 0x34) ∧
    (awaiting .vectors [0x01, 0x08, 0x00, 0x02, 0x12, 0x34, 0x4C, 0xBC] [exAnswer 0x06]).nextAnswer.ex ≠ 0x00 :=
  ⟨accepted_of_check (by decide +kernel), by decide +kernel⟩
/-- V23 and V27: one configuration for each clause. -/
theorem witness_BroadcastWriteSendsNothing :
    (∀ c ∈ [Config.vectors, unbound],
      ((awaiting c [0x00, 0x10, 0x00, 0x01, 0x00, 0x02, 0x04, 0x00, 0x0A, 0x01, 0x02, 0x96, 0xCC] []).Inv ∧
        (awaiting c [0x00, 0x10, 0x00, 0x01, 0x00, 0x02, 0x04, 0x00, 0x0A, 0x01, 0x02, 0x96, 0xCC] []).HasRequest
          0x00 0x10 0x00 0x01 0x00 0x02) ∧
      c.address ≠ 0x00 ∧ c.fc.wmr = 0x10 ∧
      (awaiting c [0x00, 0x10, 0x00, 0x01, 0x00, 0x02, 0x04, 0x00, 0x0A, 0x01, 0x02, 0x96, 0xCC] []).rxBuf.readRange 6
        (13 - 8) = some [0x04, 0x00, 0x0A, 0x01, 0x02]) ∧
    Config.vectors.cbBound.bound .wmr = true ∧ unbound.cbBound.bound .wmr = false := by
  refine ⟨fun c hc => ⟨accepted_of_check ?_, ?_⟩, by decide, by decide⟩
  · revert c; decide +kernel
  · revert c; decide +kernel
theorem witness_ResponseIsSuccessOrErrorFrame :
    runsProcess .process = true ∧
    ((s3 .vectors [okAnswer]).Inv ∧ (s3 .vectors [okAnswer]).HasRequest 0x01 0x03 0x12 0x34 0x00 0x05) ∧
    (∃ t, exec .process (s3 .vectors [okAnswer]) = .next t) ∧
    (∃ t, exec .process (s3 .vectors [exAnswer 0x02]) = .next t) :=
  ⟨rfl, accepted_of_check (by decide +kernel), next_of_report (by decide +kernel), next_of_report (by decide +kernel)⟩
theorem witness_ExceptionEntryWritesTwoBytes :
    (s3 .vectors []).Inv ∧ (s3 .vectors []).rxBuf.read 1 = some 0x03 ∧ 1 < (s3 .vectors []).cfg.rxCap :=
  ⟨inv_of_check (by decide +kernel), by decide, by decide⟩

theorem witness_AtMostOneCallback :
    Instr.process.wf Config.vectors = true ∧ (∃ t, exec .process (s3 .vectors [okAnswer]) = .next t) ∧
    ∃ t, exec .nop State.reset = .next t :=
  ⟨rfl, next_of_report (by decide +kernel), _, rfl⟩
/-- A write callback's answer: its data and value fields are ignored (R89). -/
theorem witness_UnusedAnswerFieldsAreIgnored :
    (match exec .writeSingleRegister
        { awaiting .vectors [0x01, 0x06, 0x00, 0x01, 0x00, 0x03, 0x98, 0x0B] [] with answers := [okAnswer] } with
      | .next t => decide (t.requests = [⟨.wsr, 0x0001, 0x0003, []⟩])
      | _ => false) = true ∧
    answersAgree .wsr okAnswer (dataAnswer [0x55]) ∧ answersAgree .diag (exAnswer 0x06) ⟨0x06, true, [], 7, by decide⟩ :=
  ⟨by decide +kernel, ⟨rfl, fun _ => trivial⟩, rfl, fun h => absurd h (by decide)⟩
/-- A stale byte just above the frame. -/
theorem witness_StaleBytesAreNeverRead :
    runsProcess .process = true ∧
    (∀ a, a < (s3 .vectors [okAnswer]).rxLen →
      ((s3 .vectors [okAnswer]).rxBuf.write 8 0xEE).read a = (s3 .vectors [okAnswer]).rxBuf.read a) ∧
    ∃ t, exec .process (s3 .vectors [okAnswer]) = .next t :=
  ⟨rfl, by decide +kernel, next_of_report (by decide +kernel)⟩

theorem witness_SeenCountsEveryProcess : ∃ t, exec .process (s3 noStats [okAnswer]) = .next t :=
  next_of_report (by decide +kernel)
theorem witness_CountersOnlyCountUp : ∃ t, exec .process (s3 .vectors [okAnswer]) = .next t :=
  next_of_report (by decide +kernel)
theorem witness_DisabledStatisticsDoNothing :
    (noStats.statsEn = false ∧ ∃ t, exec .process (s3 noStats [okAnswer]) = .next t) ∧
    noStats.wf = true ∧ (0x0100 : Word) ≠ 0 :=
  ⟨⟨rfl, next_of_report (by decide +kernel)⟩, by decide, by decide⟩
theorem witness_OnlyIngestWritesRxBufAndCrc :
    (∀ b, Instr.process ≠ .ingest b) ∧ ∃ t, exec .process (s3 .vectors [okAnswer]) = .next t :=
  ⟨fun _ h => (by cases h), next_of_report (by decide +kernel)⟩
theorem witness_OnlyProcessWritesTheResponse :
    (runsProcess .drain = false ∧ ∃ t, exec .drain (answeredS4 5) = .next t) ∧
    (runsProcess (.ingest 0x01) = false ∧ ∃ t, exec (.ingest 0x01) (answeredS4 5) = .next t) :=
  ⟨⟨rfl, next_of_report (by decide +kernel)⟩, rfl, next_of_report (by decide +kernel)⟩
theorem witness_EveryCommandReturnsOneResult :
    (∃ t, exec .process (s3 .vectors [okAnswer]) = .next t) ∧ ∃ t, exec .drain (answeredS4 5) = .next t :=
  ⟨next_of_report (by decide +kernel), next_of_report (by decide +kernel)⟩

theorem witness_ResetMeetsTheInvariant : Config.vectors.wf = true ∧ unbound.wf = true := by decide
theorem witness_ResetEventResets :
    State.reset.cfg.wf = true ∧ State.pending { answeredS4 5 with pending := [.reset] } = .reset :: [] := by decide
theorem witness_FirstCommandsAfterReset :
    Config.vectors.wf = true ∧ Config.wf { Config.vectors with rxCap := 1 } = true ∧
    Config.wf { Config.vectors with ctxBound := false } = true := by decide
theorem witness_StepRunsThePresentedCommand :
    State.reset.cfg.wf = true ∧
    State.pending { State.reset with pending := [.command 3 0x00] } = .command 3 0x00 :: [] ∧
    decode State.reset.cfg (.command 3 0x00) = .ok .drain := by decide
theorem witness_IdleStepIsNop : State.reset.cfg.wf = true ∧ State.reset.pending = [] := by decide
theorem witness_ParametersNeverChange : ∃ t, step State.reset = .next t := next_of_report (by decide +kernel)
theorem witness_StepKeepsTheInvariant :
    State.Inv { s3 .vectors [okAnswer] with pending := [.command 2 0x00] } ∧
    ∃ t, step { s3 .vectors [okAnswer] with pending := [.command 2 0x00] } = .next t :=
  ⟨inv_of_check (by decide +kernel), next_of_report (by decide +kernel)⟩
theorem witness_StepNeverStops :
    (s3 .vectors []).Inv ∧ (answeredS4 5).Inv ∧ (State.resetOf { smallTx with rxCap := 1 }).Inv :=
  ⟨inv_of_check (by decide +kernel), inv_of_check (by decide +kernel), inv_of_check (by decide +kernel)⟩

/-- The one callback request of a step, by its number. -/
def requested : Host.Outcome State Fault Refusal → Option (BitVec 3)
  | .next t =>
    match t.requests with
    | [q] => some q.kindCode
    | _ => none
  | .fault _ => none
  | .refused _ => none
/-- The numbers of R89, each from a request a row issues. -/
theorem witness_RequestsCarryTheirKindNumber :
    (∀ x ∈ [(Instr.readCoils, (0 : BitVec 3)), (.readInputs, 1), (.readHoldingRegisters, 2), (.writeMultipleCoils, 3),
        (.writeSingleRegister, 4), (.writeMultipleRegisters, 5)],
      requested (exec x.1 (s3 .vectors [okAnswer])) = some x.2) ∧
    (s3 .vectors [okAnswer]).requests = [] ∧ requested (exec (.diagUser 0xFFFF) (s3 .vectors [okAnswer])) = some 6 := by
  decide +kernel

/-- The two ends of the range. -/
theorem witness_UpperHalfCodesAreIllegalFunction :
    (∀ c ∈ Config.vectors.fc.all, c.toNat < 0x80) ∧
    ∀ f ∈ [(0x80 : Byte), 0xFF], 0x80 ≤ f.toNat ∧
      (awaiting .vectors (requestFrame .vectors [f]) []).Inv ∧
      (awaiting .vectors (requestFrame .vectors [f]) []).HasRequest 0x01 f 0x00 0x00 0x00 0x00 := by
  refine ⟨by decide, fun f hf => ⟨?_, accepted_of_check ?_⟩⟩
  · revert f; decide
  · revert f; decide +kernel

end Sys2Proof.Tests
end

/-! The step: which configurations it refuses, and what it does with the oldest event at the port. -/

namespace Sys2Proof.Machine

/-! ## A meaning never refuses -/

@[simp] theorem outcomeOf_ne_refused (x : Except Fault State) (r : Refusal) : outcomeOf x ≠ .refused r := by
  cases x <;> simp [outcomeOf]

/-- Every meaning is a computation that may fault and has no other way to stop. -/
theorem exec_eq_outcomeOf (i : Instr) (s : State) : ∃ x, exec i s = outcomeOf x := by
  by_cases hi : runsProcess i = true
  · exact ⟨_, exec_of_runsProcess hi s⟩
  · cases i with
    | nop => exact ⟨.ok (s.ret .ok), rfl⟩
    | ingest din => exact ⟨ingest din s, rfl⟩
    | drain => exact ⟨drain s, rfl⟩
    | _ => exact absurd rfl hi

@[simp] theorem exec_ne_refused (i : Instr) (s : State) (r : Refusal) : exec i s ≠ .refused r := by
  obtain ⟨x, hx⟩ := exec_eq_outcomeOf i s
  simp [hx]

/-! ## The port -/

theorem State.fetch_of_pending {s : State} {e : PortEvent} {es : List PortEvent} (h : s.pending = e :: es) :
    s.fetch = (e, { s with pending := es }) := by
  simp [State.fetch, h]

/-! ## The step, one equation per case -/

theorem step_of_not_wf {s : State} (h : s.cfg.wf = false) : step s = .refused .badConfig :=
  if_pos h

theorem step_of_fetch_reset {s t : State} (h : s.cfg.wf = true) (hf : s.fetch = (.reset, t)) :
    step s = .next t.applyReset := by
  simp [step, h, hf]

theorem step_of_fetch_command {s t : State} {cmd : BitVec 2} {din : Byte} (h : s.cfg.wf = true)
    (hf : s.fetch = (.command cmd din, t)) : step s = exec (decodeCommand cmd din) t := by
  simp [step, h, hf]

/-- An accepted configuration is never refused, whatever the port presents. -/
theorem step_ne_refused_of_wf {s : State} (h : s.cfg.wf = true) (r : Refusal) : step s ≠ .refused r := by
  match hf : s.fetch with
  | (.reset, t) => simp [step_of_fetch_reset h hf]
  | (.command cmd din, t) => simp [step_of_fetch_command h hf]

theorem step_refuses_iff_not_wf (s : State) : step s = .refused .badConfig ↔ ¬ s.cfg.wf = true := by
  constructor
  · intro hr h
    exact step_ne_refused_of_wf h .badConfig hr
  · intro h
    exact step_of_not_wf (by simpa using h)

/-- The test for an accepted configuration is the conjunction of the constraints of R6, R8 and R9: with
`Laws.bounds_of_wf`, in both directions. -/
theorem config_wf_iff (c : Config) :
    c.wf = true ↔
      1 ≤ c.rxCap ∧ c.rxCap ≤ 65535 ∧ 8 ≤ c.txCap ∧ c.txCap ≤ 65535 ∧ c.statBase.toNat ≤ 0xFFFB ∧ 16 ≤ c.statW ∧
        c.fc.all.Nodup := by
  refine ⟨Laws.bounds_of_wf, ?_⟩
  rintro ⟨hrx, hrxMax, htx, htxMax, hbase, hw, hcodes⟩
  simp [Config.wf, FuncCodes.wf, hrx, hrxMax, htx, htxMax, hbase, hw, hcodes]

/-! ## The statements -/

/-- Settles O54: no meaning refuses, so the step's own test of the configuration is the only source of a refusal. -/
theorem badConfigurationIsRefused : Obligations.BadConfigurationIsRefused := by
  intro s
  rw [step_refuses_iff_not_wf, config_wf_iff]

/-- Settles O52: the decoder reads a transaction as the step does, and the port presents its oldest event. -/
theorem stepRunsThePresentedCommand : Obligations.StepRunsThePresentedCommand := by
  intro s cmd din es i hwf hpending hdecode
  have hi : decodeCommand cmd din = i := Except.ok.inj hdecode
  rw [step_of_fetch_command hwf (State.fetch_of_pending hpending), hi]

end Sys2Proof.Machine

/-! The invariant between commands, and what each instruction may write. -/

namespace Sys2Proof.Machine

/-! ## The CRC engine: linearity, the table form, the residue -/

/-- The eight shifts of R100 without the byte. -/
def crcShift8 (x : Word) : Word :=
  crcShift (crcShift (crcShift (crcShift (crcShift (crcShift (crcShift (crcShift x)))))))

theorem crc16Add_eq_shift8 (b : Byte) (c : Word) : crc16Add b c = crcShift8 (c ^^^ b.setWidth 16) := rfl

theorem crcShift_xor (x y : Word) : crcShift (x ^^^ y) = crcShift x ^^^ crcShift y := by
  unfold crcShift
  rw [BitVec.getLsbD_xor, BitVec.ushiftRight_xor_distrib]
  cases x.getLsbD 0 <;> cases y.getLsbD 0 <;> simp
  · ac_rfl
  · ac_rfl
  · rw [show x >>> 1 ^^^ crcPoly ^^^ (y >>> 1 ^^^ crcPoly) = x >>> 1 ^^^ y >>> 1 ^^^ (crcPoly ^^^ crcPoly) by ac_rfl]
    simp

theorem crcShift8_xor (x y : Word) : crcShift8 (x ^^^ y) = crcShift8 x ^^^ crcShift8 y := by
  simp only [crcShift8, crcShift_xor]

/-- Eight shifts take a high byte down to the low one: no carry leaves a zero low byte. -/
theorem crcShift8_highByte (h : Byte) : crcShift8 (beWord h 0) = h.setWidth 16 := by
  revert h; decide +kernel

/-- R101: the printed entry of a byte is its eight shifts. -/
theorem crcShift8_lowByte (l : Byte) : crcShift8 (l.setWidth 16) = crcTableAt l := by
  revert l; decide +kernel

theorem word_eq_highByte_xor_lowByte (x : Word) : x = beWord (hiByte x) 0 ^^^ (loByte x).setWidth 16 := by
  ext i hi
  rw [BitVec.getElem_xor, beWord, BitVec.getElem_append]
  by_cases h : i < 8
  · simp [h, loByte, BitVec.getLsbD_eq_getElem hi]
  · simp [h, loByte, hiByte, show 8 + (i - 8) = i by omega, BitVec.getLsbD_eq_getElem hi]

theorem hiByte_xor_byte (b : Byte) (c : Word) : (hiByte (c ^^^ b.setWidth 16)).setWidth 16 = c >>> 8 := by
  ext i hi
  suffices c.getLsbD (8 + i) = true → i < 8 by simpa [hiByte]
  intro hc
  have := BitVec.lt_of_getLsbD hc
  omega

/-- The table form computes what the bitwise form does (R101, R105). -/
theorem crc16AddTable_eq (b : Byte) (c : Word) : crc16AddTable b c = crc16Add b c := by
  rw [crc16Add_eq_shift8, word_eq_highByte_xor_lowByte (c ^^^ b.setWidth 16), crcShift8_xor, crcShift8_highByte,
    crcShift8_lowByte, hiByte_xor_byte]
  rfl

/-- R105, of one byte. -/
theorem crcAddBy_eq (st : CrcStrategy) (b : Byte) (c : Word) : crcAddBy st b c = crc16Add b c := by
  cases st with
  | bitwise => rfl
  | table => exact crc16AddTable_eq b c

/-- R105, of a sequence. -/
theorem crc16By_eq (st : CrcStrategy) (bs : List Byte) : crc16By st bs = crc16 bs := by
  simp only [crc16By, crc16, crcAddBy_eq]

/-- R104, of one state: folding a state's own two bytes, low byte first, clears it. -/
theorem crc16Add_own_bytes (c : Word) : crc16Add (hiByte c) (crc16Add (loByte c) c) = 0 := by
  have hlo : crc16Add (loByte c) c = (hiByte c).setWidth 16 := by
    have hx : c ^^^ (loByte c).setWidth 16 = beWord (hiByte c) 0 := by
      nth_rw 1 [word_eq_highByte_xor_lowByte c]
      rw [BitVec.xor_assoc, BitVec.xor_self, BitVec.xor_zero]
    rw [crc16Add_eq_shift8, hx, crcShift8_highByte]
  rw [hlo, crc16Add_eq_shift8, BitVec.xor_self]
  rfl

/-- R104: a sequence with its own CRC at the end has residue zero. -/
theorem crc16_append_crcBytes (bs : List Byte) : crc16 (bs ++ crcBytes (crc16 bs)) = 0 := by
  rw [crcBytes, List.append_cons, crc16_append_one, crc16_append_one, crc16Add_own_bytes]

/-! ## The instruction's end: one case per kind of meaning -/

/-- The ways an instruction answers a next state: NOP (R93), INGEST (R110 to R112), DRAIN (R190, R191), PROCESS. -/
inductive ExecEnd : Instr → State → State → Prop where
  | nop (s : State) : ExecEnd .nop s (s.ret .ok)
  | ingest (b : Byte) (s : State) (hlen : s.rxLen < s.cfg.rxCap) :
      ExecEnd (.ingest b) s
        (State.advance { s with rxBuf := s.rxBuf.write s.rxLen b, crc := crc16Add b s.seed })
  | ended (s : State) (hrem : s.txRem = 0) : ExecEnd .drain s (s.ret .msgEnded)
  | drained (s : State) (b : Byte) (hrem : 0 < s.txRem) (hle : s.txRem ≤ s.txLen)
      (hb : s.txByte (s.txLen - s.txRem) = .ok b) :
      ExecEnd .drain s (State.retByte { s with txRem := s.txRem - 1 } b)
  | process (i : Instr) (s t : State) (hi : runsProcess i = true) (he : ProcessEnd (handlerOf i) s t) :
      ExecEnd i s t

theorem exec_end {i : Instr} {s t : State} (h : exec i s = .next t) : ExecEnd i s t := by
  by_cases hi : runsProcess i = true
  · exact .process i s t hi (exec_process_end hi h)
  · cases i with
    | nop => cases h; exact .nop s
    | ingest b =>
      obtain ⟨hlen, rfl⟩ := ingest_eq_ok.mp (outcomeOf_eq_next.mp h)
      rw [crcAddBy_eq]
      exact .ingest b s hlen
    | drain =>
      rcases drain_eq_ok.mp (outcomeOf_eq_next.mp h) with ⟨hrem, rfl⟩ | ⟨hrem, hle, b, hb, rfl⟩
      · exact .ended s hrem
      · exact .drained s b hrem hle hb
    | _ => exact absurd rfl hi

/-! ## What an advance of the fill length leaves unchanged (R112) -/

namespace State

@[simp] theorem advance_cfg (s : State) : s.advance.cfg = s.cfg := by unfold advance; split <;> rfl
@[simp] theorem advance_rxBuf (s : State) : s.advance.rxBuf = s.rxBuf := by unfold advance; split <;> rfl
@[simp] theorem advance_crc (s : State) : s.advance.crc = s.crc := by unfold advance; split <;> rfl
@[simp] theorem advance_txBuf (s : State) : s.advance.txBuf = s.txBuf := by unfold advance; split <;> rfl
@[simp] theorem advance_txLen (s : State) : s.advance.txLen = s.txLen := by unfold advance; split <;> rfl
@[simp] theorem advance_txRem (s : State) : s.advance.txRem = s.txRem := by unfold advance; split <;> rfl
@[simp] theorem advance_stats (s : State) : s.advance.stats = s.stats := by unfold advance; split <;> rfl
@[simp] theorem advance_answers (s : State) : s.advance.answers = s.answers := by unfold advance; split <;> rfl
@[simp] theorem advance_requests (s : State) : s.advance.requests = s.requests := by unfold advance; split <;> rfl

theorem advance_rxLen (s : State) :
    s.advance.rxLen = if s.rxLen + 1 = s.cfg.rxCap then 0 else s.rxLen + 1 := by
  unfold advance; split <;> rfl

/-! ## The counters a command increments -/

@[simp] theorem counted_nil (s : State) : s.counted [] = s.stats := rfl

@[simp] theorem counted_cons (s : State) (i : StatIx) (l : List StatIx) :
    s.counted (i :: l) = (s.count i).counted l := rfl

theorem counted_of_disabled (s : State) (l : List StatIx) (h : s.cfg.statsEn = false) : s.counted l = s.stats := by
  induction l generalizing s with
  | nil => rfl
  | cons i l ih => rw [counted_cons, ih (s.count i) h, count_stats, Stats.count_off _ _ _ h]

/-- Counters incremented at most once each. -/
theorem get_counted (s : State) {l : List StatIx} (hl : l.Nodup) (j : StatIx) :
    (s.counted l).get j =
      if s.cfg.statsEn = true ∧ j ∈ l then (s.stats.get j + 1) % 2 ^ s.cfg.statW else s.stats.get j := by
  induction l generalizing s with
  | nil => simp
  | cons i l ih =>
    obtain ⟨hi, hl⟩ := List.nodup_cons.mp hl
    rw [counted_cons, ih _ hl, count_cfg, count_stats, Stats.get_count]
    by_cases hj : j = i
    · subst hj; simp [hi]
    · simp [hj]

end State

/-! ## What a PROCESS leaves unchanged, and what it counts -/

/-- The fields no handler writes. -/
theorem HandlerEffect.frame {u : State} {r : Handled} (he : HandlerEffect u r) :
    r.state.cfg = u.cfg ∧ r.state.rxBuf = u.rxBuf ∧ r.state.rxLen = u.rxLen ∧ r.state.crc = u.crc ∧
      r.state.pending = u.pending ∧ r.state.outputs = u.outputs := by
  rw [he.keeps]
  exact ⟨rfl, rfl, rfl, rfl, rfl, rfl⟩

/-- Whatever an accepted frame's handler did and `Finish` made of the response, the rest is as R120 and R231 say. -/
theorem HandlerEffect.processed {s : State} {bc : Bool} {a f : Byte} {r : Handled}
    (he : HandlerEffect (handlerStart s bc a f) r) (m : Memory) (len rem : Nat) (st : Stats) (res : Result) :
    s.Processed (State.ret { r.state with txBuf := m, txLen := len, txRem := rem, stats := st } res) res := by
  obtain ⟨hcfg, hrxBuf, hrxLen, hcrc, hpending, houtputs⟩ := he.frame
  exact ⟨hcfg, hrxBuf, hcrc, hpending, hrxLen, by rw [State.ret_outputs, houtputs]; rfl⟩

theorem State.processed_dropped (s : State) (r : Result) (l : List StatIx) : s.Processed (s.dropped r l) r :=
  ⟨rfl, rfl, rfl, rfl, rfl, rfl⟩

theorem ProcessEnd.processed {h : Handler} {s t : State} (hs : HandlerSound h) (e : ProcessEnd h s t) :
    ∃ r, s.Processed t r := by
  cases e with
  | null hc ht => exact ⟨.errNull, by subst ht; exact ⟨rfl, rfl, rfl, rfl, rfl, rfl⟩⟩
  | short hc hn ht => exact ⟨_, ht ▸ s.processed_dropped _ _⟩
  | crc hc hn hr ht => exact ⟨_, ht ▸ s.processed_dropped _ _⟩
  | unsupported hc hn hr a f ha hf hres ht => exact ⟨_, ht ▸ s.processed_dropped _ _⟩
  | mismatch hc hn hr a f ha hf hres ht => exact ⟨_, ht ▸ s.processed_dropped _ _⟩
  | unicast hc hn hr a f ha hf hres hcap r u hh hu ht =>
    obtain ⟨body, -, -, rfl⟩ := finishUnicast_eq_ok.mp hu
    exact ⟨_, ht ▸ (hs _ _ _ hh).processed _ _ _ _ _⟩
  | broadcast hc hn hr a f ha hf hres hcap r hh ht =>
    exact ⟨_, ht ▸ (hs _ _ _ hh).processed _ _ _ _ _⟩

/-- The counter of a handler's outcome is none of the other three a unicast frame may count (R174). -/
theorem HandlerOutcome.counter_ne (o : HandlerOutcome) :
    o.counter ≠ .addressed ∧ o.counter ≠ .seen ∧ o.counter ≠ .invalid := by
  cases o <;> decide

/-- A PROCESS increments some counters, each at most once, and `stat_seen` exactly when it passes the guard (R130). -/
theorem ProcessEnd.stats_counted {h : Handler} {s t : State} (hs : HandlerSound h) (e : ProcessEnd h s t) :
    ∃ l : List StatIx, l.Nodup ∧ (.seen ∈ l ↔ s.cfg.ctxBound = true) ∧ t.stats = s.counted l := by
  cases e with
  | null hc ht => exact ⟨[], by simp, by simp [hc], by rw [ht]; rfl⟩
  | short hc hn ht => exact ⟨[.invalid, .seen], by decide, by simp [hc], by rw [ht]; rfl⟩
  | crc hc hn hr ht => exact ⟨[.invalid, .seen], by decide, by simp [hc], by rw [ht]; rfl⟩
  | unsupported hc hn hr a f ha hf hres ht => exact ⟨[.seen], by decide, by simp [hc], by rw [ht]; rfl⟩
  | mismatch hc hn hr a f ha hf hres ht => exact ⟨[.seen], by decide, by simp [hc], by rw [ht]; rfl⟩
  | unicast hc hn hr a f ha hf hres hcap r u hh hu ht =>
    obtain ⟨body, -, -, rfl⟩ := finishUnicast_eq_ok.mp hu
    have he := hs _ _ _ hh
    have hcfg : r.state.cfg = s.cfg := he.frame.1
    obtain ⟨hadd, hseen, hinv⟩ := r.outcome.counter_ne
    rcases he.stats with hst | ⟨-, hst⟩
    · refine ⟨[.addressed, r.outcome.counter, .seen], by simp [hadd.symm, hseen], by simp [hc], ?_⟩
      rw [ht, State.ret_stats, State.count_stats, hst, hcfg]; rfl
    · refine ⟨[.addressed, .invalid, r.outcome.counter, .seen], by simp [hadd.symm, hinv.symm, hseen],
        by simp [hc], ?_⟩
      rw [ht, State.ret_stats, State.count_stats, hst, hcfg]; rfl
  | broadcast hc hn hr a f ha hf hres hcap r hh ht =>
    have he := hs _ _ _ hh
    have hcfg : r.state.cfg = s.cfg := he.frame.1
    rcases he.stats with hst | ⟨-, hst⟩
    · refine ⟨[.seen], by decide, by simp [hc], ?_⟩
      rw [ht, State.ret_stats, State.count_stats, hst, hcfg]; rfl
    · refine ⟨[.invalid, .seen], by decide, by simp [hc], ?_⟩
      rw [ht, State.ret_stats, State.count_stats, hst, hcfg]; rfl

/-- What any instruction does to the counters (R29 to R31). -/
theorem exec_stats_counted {i : Instr} {s t : State} (h : exec i s = .next t) :
    ∃ l : List StatIx, l.Nodup ∧ t.stats = s.counted l := by
  cases exec_end h with
  | nop | ingest | ended | drained => exact ⟨[], List.nodup_nil, by simp⟩
  | process _ _ _ hi he =>
    obtain ⟨l, hl, -, ht⟩ := he.stats_counted (sound_handlerOf i)
    exact ⟨l, hl, ht⟩

/-! ## The invariant in three parts -/

/-- The receive side (R35 (a), (c)): what the invariant says of `rx_buf`, `rx_len` and `crc`. -/
structure RxInv (c : Config) (m : Memory) (len : Nat) (crc : Word) : Prop where
  wf : m.wf = true
  within : m.within c.rxCap = true
  lenLt : len < c.rxCap
  frame : ∃ bs, m.readRange 0 len = some bs ∧ (0 < len → crc = crc16 bs)

/-- The transmit side (R35 (b), (d)): what the invariant says of `tx_buf`, `tx_len` and `tx_rem`. -/
structure TxInv (c : Config) (m : Memory) (len rem : Nat) : Prop where
  wf : m.wf = true
  within : m.within c.txCap = true
  remLe : rem ≤ len
  lenLe : len ≤ c.txCap
  lenMax : len ≤ 260
  frame : ∃ bs, m.readRange 0 len = some bs ∧ (0 < len → 5 ≤ len ∧ crc16 bs = 0x0000)

/-- The counters (R29, R31). -/
structure StatsInv (c : Config) (t : Stats) : Prop where
  lt : ∀ i, t.get i < 2 ^ c.statW
  off : c.statsEn = false → t = Stats.zero

theorem State.inv_iff {s : State} :
    s.Inv ↔ s.cfg.wf = true ∧ RxInv s.cfg s.rxBuf s.rxLen s.crc ∧ TxInv s.cfg s.txBuf s.txLen s.txRem ∧
      StatsInv s.cfg s.stats := by
  constructor
  · rintro ⟨hcfg, hrxWf, hrxIn, htxWf, htxIn, hrxLt, hrx, hrem, hcap, hmax, htx, hlt, hoff⟩
    exact ⟨hcfg, ⟨hrxWf, hrxIn, hrxLt, hrx⟩, ⟨htxWf, htxIn, hrem, hcap, hmax, htx⟩, hlt, hoff⟩
  · rintro ⟨hcfg, ⟨hrxWf, hrxIn, hrxLt, hrx⟩, ⟨htxWf, htxIn, hrem, hcap, hmax, htx⟩, hlt, hoff⟩
    exact ⟨hcfg, hrxWf, hrxIn, htxWf, htxIn, hrxLt, hrx, hrem, hcap, hmax, htx, hlt, hoff⟩

/-! ### The receive side -/

theorem RxInv.empty {c : Config} {m : Memory} (crc : Word) (hcap : 1 ≤ c.rxCap) (hwf : m.wf = true)
    (hin : m.within c.rxCap = true) : RxInv c m 0 crc :=
  ⟨hwf, hin, hcap, [], rfl, fun h => absurd h (Nat.lt_irrefl 0)⟩

theorem RxInv.consumed {c : Config} {m : Memory} {len : Nat} {crc : Word} (h : RxInv c m len crc) :
    RxInv c m 0 crc :=
  .empty crc (by have := h.lenLt; omega) h.wf h.within

/-- The CRC an INGEST folds into is that of the bytes ingested so far (R111). -/
theorem State.seed_eq {s : State} {bs : List Byte} (hbs : s.rxBuf.readRange 0 s.rxLen = some bs)
    (hcrc : 0 < s.rxLen → s.crc = crc16 bs) : s.seed = crc16 bs := by
  unfold State.seed
  split
  · next h0 => rw [h0] at hbs; cases hbs; rfl
  · next h0 => exact hcrc (by omega)

/-- An INGEST keeps the receive side, whether it extends the frame or overflows (R110 to R112). -/
theorem RxInv.ingest {s : State} (h : RxInv s.cfg s.rxBuf s.rxLen s.crc) (b : Byte) :
    RxInv s.cfg (s.rxBuf.write s.rxLen b) (if s.rxLen + 1 = s.cfg.rxCap then 0 else s.rxLen + 1)
      (crc16Add b s.seed) := by
  have hlt := h.lenLt
  have hwf := Memory.wf_write s.rxBuf s.rxLen b h.wf
  have hin := Memory.within_write s.cfg.rxCap s.rxBuf s.rxLen b hlt h.within
  split
  · exact .empty _ (by omega) hwf hin
  · obtain ⟨bs, hbs, hcrc⟩ := h.frame
    have hold : (s.rxBuf.write s.rxLen b).readRange 0 s.rxLen = some bs := by
      rw [Memory.readRange_congr fun k _ hk => Memory.read_write_other s.rxBuf b (by omega), hbs]
    have hnew : (s.rxBuf.write s.rxLen b).read (0 + s.rxLen) = some b := by
      rw [Nat.zero_add, Memory.read_write_same]
    exact ⟨hwf, hin, by omega, bs ++ [b], Memory.readRange_one_more _ 0 _ hold hnew, fun _ => by
      rw [s.seed_eq hbs hcrc, crc16_append_one]⟩

/-! ### The transmit side -/

theorem TxInv.cleared {c : Config} {m : Memory} (hwf : m.wf = true) (hin : m.within c.txCap = true) :
    TxInv c m 0 0 :=
  ⟨hwf, hin, Nat.le_refl 0, Nat.zero_le _, Nat.zero_le _, [], rfl, fun h => absurd h (Nat.lt_irrefl 0)⟩

theorem TxInv.rem_le {c : Config} {m : Memory} {len rem rem' : Nat} (h : TxInv c m len rem) (hle : rem' ≤ rem) :
    TxInv c m len rem' :=
  { h with remLe := Nat.le_trans hle h.remLe }

/-- A response finished with its CRC (R172): 3 to 258 bytes before it, and residue zero after it (R104). -/
theorem TxInv.finished {c : Config} {m : Memory} {len : Nat} {body : List Byte} (hwf : m.wf = true)
    (hin : m.within c.txCap = true) (hbody : m.readRange 0 len = some body) (hmin : 3 ≤ len) (hmax : len ≤ 258)
    (hcap : len + 2 ≤ c.txCap) : TxInv c (m.writes len (crcBytes (crc16 body))) (len + 2) (len + 2) where
  wf := Memory.wf_writes _ _ _ hwf
  within := Memory.within_writes _ _ _ _ hcap hin
  remLe := Nat.le_refl _
  lenLe := hcap
  lenMax := by omega
  frame := ⟨body ++ crcBytes (crc16 body), Memory.readRange_append_writes _ hbody,
    fun _ => ⟨by omega, crc16_append_crcBytes body⟩⟩

/-- A handler leaves `tx_buf` in canonical form and within its capacity. -/
theorem HandlerEffect.txBuf_ok {s : State} {bc : Bool} {a f : Byte} {r : Handled}
    (he : HandlerEffect (handlerStart s bc a f) r) (hcap : 8 ≤ s.cfg.txCap) (hwf : s.txBuf.wf = true)
    (hin : s.txBuf.within s.cfg.txCap = true) :
    r.state.txBuf.wf = true ∧ r.state.txBuf.within s.cfg.txCap = true := by
  obtain ⟨x, bs, -, hl, e⟩ := he.state
  have hfits : r.len + 2 ≤ s.cfg.txCap := he.fits hcap
  rw [e]
  exact ⟨Memory.wf_writes _ _ _ (Memory.wf_writes _ _ _ hwf),
    Memory.within_writes _ _ _ _ (by omega) (Memory.within_writes _ _ _ _ (by simp; omega) hin)⟩

theorem ProcessEnd.keeps_txInv {h : Handler} {s t : State} (hs : HandlerSound h) (e : ProcessEnd h s t)
    (hcap : 8 ≤ s.cfg.txCap) (hI : TxInv s.cfg s.txBuf s.txLen s.txRem) :
    TxInv s.cfg t.txBuf t.txLen t.txRem := by
  cases e with
  | null hc ht => exact ht ▸ hI
  | short hc hn ht => exact ht ▸ .cleared hI.wf hI.within
  | crc hc hn hr ht => exact ht ▸ .cleared hI.wf hI.within
  | unsupported hc hn hr a f ha hf hres ht => exact ht ▸ .cleared hI.wf hI.within
  | mismatch hc hn hr a f ha hf hres ht => exact ht ▸ .cleared hI.wf hI.within
  | unicast hc hn hr a f ha hf hres hcap1 r u hh hu ht =>
    obtain ⟨body, hbody, -, rfl⟩ := finishUnicast_eq_ok.mp hu
    have he := hs _ _ _ hh
    obtain ⟨hwf, hin⟩ := he.txBuf_ok hcap hI.wf hI.within
    rw [crc16By_eq] at ht
    exact ht ▸ .finished hwf hin (State.readRange_of_txBytes hbody) he.lenMin he.lenMax (he.fits hcap)
  | broadcast hc hn hr a f ha hf hres hcap1 r hh ht =>
    obtain ⟨hwf, hin⟩ := (hs _ _ _ hh).txBuf_ok hcap hI.wf hI.within
    exact ht ▸ .cleared hwf hin

/-! ### The counters -/

theorem StatsInv.zero (c : Config) : StatsInv c Stats.zero :=
  ⟨fun i => by cases i <;> exact Nat.two_pow_pos _, fun _ => rfl⟩

theorem StatsInv.counted {s : State} (h : StatsInv s.cfg s.stats) (l : List StatIx) :
    StatsInv s.cfg (s.counted l) where
  lt := by
    induction l generalizing s with
    | nil => exact h.lt
    | cons i l ih => exact ih (s := s.count i) ⟨Stats.get_count_lt _ _ _ h.lt, fun hoff => by
        rw [State.count_stats, Stats.count_off s.cfg s.stats i hoff, h.off hoff]⟩
  off hoff := by rw [s.counted_of_disabled l hoff, h.off hoff]

/-! ## Every step keeps the invariant -/

theorem exec_keeps_inv {i : Instr} {s t : State} (hI : s.Inv) (h : exec i s = .next t) : t.Inv := by
  obtain ⟨hcfg, hrx, htx, hst⟩ := State.inv_iff.mp hI
  cases exec_end h with
  | nop => exact State.inv_iff.mpr ⟨hcfg, hrx, htx, hst⟩
  | ingest b _ hlen =>
    refine State.inv_iff.mpr ⟨by simpa using hcfg, ?_, by simpa using htx, by simpa using hst⟩
    simpa [State.advance_rxLen] using hrx.ingest b
  | ended => exact State.inv_iff.mpr ⟨hcfg, hrx, htx, hst⟩
  | drained _ b hrem hle hb =>
    exact State.inv_iff.mpr ⟨hcfg, hrx, htx.rem_le (Nat.sub_le _ _), hst⟩
  | process _ _ _ hi he =>
    have hcap := (Laws.bounds_of_wf hcfg).2.2.1
    obtain ⟨r, hp⟩ := he.processed (sound_handlerOf i)
    obtain ⟨l, -, -, hl⟩ := he.stats_counted (sound_handlerOf i)
    have htx' := he.keeps_txInv (sound_handlerOf i) hcap htx
    refine State.inv_iff.mpr ?_
    rw [hp.cfg, hp.rxBuf, hp.rxLen, hp.crc, hl]
    exact ⟨hcfg, hrx.consumed, htx', hst.counted l⟩

/-- A state with the reset values meets the invariant, whatever its ports hold (R38, R230). -/
theorem inv_of_reset_values {s : State} (hcfg : s.cfg.wf = true) (hrx : s.rxBuf = []) (hrxLen : s.rxLen = 0)
    (htx : s.txBuf = []) (htxLen : s.txLen = 0) (htxRem : s.txRem = 0) (hst : s.stats = Stats.zero) : s.Inv := by
  refine State.inv_iff.mpr ?_
  rw [hrx, hrxLen, htx, htxLen, htxRem, hst]
  exact ⟨hcfg, .empty _ (Laws.bounds_of_wf hcfg).1 rfl rfl, .cleared rfl rfl, .zero _⟩

theorem applyReset_inv {s : State} (h : s.cfg.wf = true) : s.applyReset.Inv :=
  inv_of_reset_values h rfl rfl rfl rfl rfl rfl

theorem resetOf_inv {c : Config} (h : c.wf = true) : (State.resetOf c).Inv :=
  inv_of_reset_values h rfl rfl rfl rfl rfl rfl

/-- What the port presents is no part of the invariant. -/
theorem State.Inv.fetch {s : State} (h : s.Inv) : s.fetch.2.Inv := by
  obtain ⟨hcfg, hrx, htx, hst⟩ := State.inv_iff.mp h
  unfold State.fetch
  split
  · exact h
  · exact State.inv_iff.mpr ⟨hcfg, hrx, htx, hst⟩

/-! ## The statements -/

/-- Settles O56: a step is a reset or one instruction, and each keeps the three parts of the invariant. -/
theorem stepKeepsTheInvariant : Obligations.StepKeepsTheInvariant := by
  intro s t hI h
  have hu := hI.fetch
  match hf : s.fetch with
  | (.reset, u) =>
    rw [step_of_fetch_reset hI.cfgOk hf] at h
    cases h
    rw [hf] at hu
    exact applyReset_inv hu.cfgOk
  | (.command cmd din, u) =>
    rw [step_of_fetch_command hI.cfgOk hf] at h
    rw [hf] at hu
    exact exec_keeps_inv hu h

/-- Settles O43: a command increments a set of counters once each. -/
theorem countersOnlyCountUp : Obligations.CountersOnlyCountUp := by
  intro i s t j h
  obtain ⟨l, hl, ht⟩ := exec_stats_counted h
  rw [ht, s.get_counted hl]
  split
  · next hj => exact Or.inr ⟨hj.1, rfl⟩
  · exact Or.inl rfl

/-- Settles O44: with the counters disabled an increment is a no-op, and no sub-function is in the statistics range. -/
theorem disabledStatisticsDoNothing : Obligations.DisabledStatisticsDoNothing := by
  constructor
  · intro i s t hoff h
    obtain ⟨l, -, ht⟩ := exec_stats_counted h
    rw [ht, s.counted_of_disabled l hoff]
  · intro c subfn hwf hoff h0
    have hsub : c.isUserSub subfn = true := by
      rw [Config.isUserSub, decide_eq_true h0]
      simp [Config.inStatRange, hoff]
    have hdec := Laws.decode_encodeDiag hwf subfn
    rw [decodeDiag, Laws.ofSub_user hsub] at hdec
    refine hdec.trans ?_
    cases c.cbBound.diag with
    | true => rfl
    | false => rfl

/-- Settles O45: NOP and DRAIN touch neither, and a PROCESS keeps both. -/
theorem onlyIngestWritesRxBufAndCrc : Obligations.OnlyIngestWritesRxBufAndCrc := by
  intro i s t hi h
  cases exec_end h with
  | nop => exact ⟨rfl, rfl⟩
  | ingest b _ hlen => exact absurd rfl (hi b)
  | ended => exact ⟨rfl, rfl⟩
  | drained => exact ⟨rfl, rfl⟩
  | process _ _ _ _ he =>
    obtain ⟨r, hp⟩ := he.processed (sound_handlerOf i)
    exact ⟨hp.rxBuf, hp.crc⟩

/-- Settles O46: NOP, INGEST and DRAIN, each by what it writes. -/
theorem onlyProcessWritesTheResponse : Obligations.OnlyProcessWritesTheResponse := by
  intro i s t hi h
  cases exec_end h with
  | nop => exact ⟨rfl, rfl, rfl, ⟨rfl, rfl⟩, fun _ => rfl, fun _ => rfl⟩
  | ingest b _ hlen =>
    exact ⟨by simp, by simp, by simp, ⟨by simp, by simp⟩, by simp, fun hb => absurd rfl (hb b)⟩
  | ended => exact ⟨rfl, rfl, rfl, ⟨rfl, rfl⟩, fun _ => rfl, fun _ => rfl⟩
  | drained => exact ⟨rfl, rfl, rfl, ⟨rfl, rfl⟩, fun hd => absurd rfl hd, fun _ => rfl⟩
  | process _ _ _ hrun => exact absurd hrun (by simp [hi])

/-- Settles O48: the reset values, field by field; an empty memory has no value anywhere. -/
theorem resetLeavesTheResetValues : Obligations.ResetLeavesTheResetValues := by
  intro c
  have hstats : ∀ i, Stats.zero.get i = 0 := fun i => by cases i <;> rfl
  exact ⟨rfl, rfl, rfl, rfl, hstats, rfl, fun a => ⟨Memory.read_nil a, Memory.read_nil a⟩⟩

/-- Settles O49: the configuration of `State.reset` is one of the accepted. -/
theorem resetMeetsTheInvariant : Obligations.ResetMeetsTheInvariant :=
  ⟨fun _ h => resetOf_inv h, resetOf_inv (by decide)⟩

end Sys2Proof.Machine

/-! Two-byte fields and their byte order, and the bytes of `rx_buf` above the frame, which no PROCESS reads. -/

namespace Sys2Proof.Machine

/-! ## Two-byte fields -/

/-- A big-endian store inside the buffer writes the two bytes of its value and nothing else (R52, R54). -/
theorem State.txStoreWord_of_fits {s : State} {a : Nat} (v : Word) (h : a + 1 < s.cfg.txCap) :
    s.txStoreWord a v = .ok { s with txBuf := s.txBuf.writes a [hiByte v, loByte v] } :=
  State.txStores_of_fits h

/-! ## Another receive buffer -/

/-- The state with another receive buffer. -/
def State.withRxBuf (m : Memory) (s : State) : State := { s with rxBuf := m }

@[simp] theorem State.withRxBuf_rxBuf (m : Memory) (s : State) : (s.withRxBuf m).rxBuf = m := rfl
@[simp] theorem State.withRxBuf_cfg (m : Memory) (s : State) : (s.withRxBuf m).cfg = s.cfg := rfl
@[simp] theorem State.withRxBuf_nextAnswer (m : Memory) (s : State) : (s.withRxBuf m).nextAnswer = s.nextAnswer := rfl

/-- A handler's result with another receive buffer. -/
def Handled.withRxBuf (m : Memory) (r : Handled) : Handled := { r with state := r.state.withRxBuf m }

/-- `m` holds the same bytes as the receive buffer at the offsets below `n`. -/
def State.SameFrame (s : State) (n : Nat) (m : Memory) : Prop :=
  ∀ a, a < n → m.read a = s.rxBuf.read a

/-- Of `rx_buf` the handler reads the frame alone: another buffer with the same frame of `n` bytes gives the same
result, a fault included, with that buffer in place (R57). -/
def ReadsOnlyTheFrame (h : Handler) : Prop :=
  ∀ n s m, 7 ≤ n → s.SameFrame n m → h n (s.withRxBuf m) = Handled.withRxBuf m <$> h n s

section
variable {s : State} {n : Nat} {m : Memory}

/-! ### What reads the frame -/

namespace State

theorem rxByte_withRxBuf (hm : s.SameFrame n m) {a : Nat} (ha : a < n) : (s.withRxBuf m).rxByte a = s.rxByte a := by
  unfold rxByte
  rw [withRxBuf_rxBuf, withRxBuf_cfg, hm a ha]

theorem rxWord_withRxBuf (hm : s.SameFrame n m) {a : Nat} (ha : a + 1 < n) : (s.withRxBuf m).rxWord a = s.rxWord a := by
  rw [rxWord, rxWord, rxByte_withRxBuf hm ha, rxByte_withRxBuf hm (Nat.lt_of_succ_lt ha)]

theorem rxBytes_withRxBuf (hm : s.SameFrame n m) {a k : Nat} (hk : a + k ≤ n) :
    (s.withRxBuf m).rxBytes a k = s.rxBytes a k := by
  induction k generalizing a with
  | zero => rfl
  | succ k ih => rw [rxBytes, rxBytes, rxByte_withRxBuf hm (by omega), ih (by omega)]

theorem fieldF_withRxBuf (hn : 7 ≤ n) (hm : s.SameFrame n m) : (s.withRxBuf m).fieldF = s.fieldF :=
  rxWord_withRxBuf hm (by omega)

theorem fieldG_withRxBuf (hn : 7 ≤ n) (hm : s.SameFrame n m) : (s.withRxBuf m).fieldG = s.fieldG :=
  rxWord_withRxBuf hm (by omega)

/-- The data region ends two bytes before the frame, or is empty (R145, D17). -/
theorem dataRegion_withRxBuf (hn : 7 ≤ n) (hm : s.SameFrame n m) : (s.withRxBuf m).dataRegion n = s.dataRegion n :=
  rxBytes_withRxBuf hm (by unfold dataLen; omega)

/-! ### What writes the response -/

theorem txByte_withRxBuf (m : Memory) (s : State) (a : Nat) : (s.withRxBuf m).txByte a = s.txByte a := rfl

theorem txBytes_withRxBuf (m : Memory) (s : State) (a k : Nat) : (s.withRxBuf m).txBytes a k = s.txBytes a k := by
  induction k generalizing a with
  | zero => rfl
  | succ k ih => rw [txBytes, txBytes, txByte_withRxBuf, ih]

theorem txStore_withRxBuf (m : Memory) (s : State) (a : Nat) (b : Byte) :
    (s.withRxBuf m).txStore a b = State.withRxBuf m <$> s.txStore a b := by
  unfold txStore
  rw [State.withRxBuf_cfg]
  split
  · rfl
  · rfl

theorem txStores_withRxBuf (m : Memory) (s : State) (a : Nat) (bs : List Byte) :
    (s.withRxBuf m).txStores a bs = State.withRxBuf m <$> s.txStores a bs := by
  induction bs generalizing s a with
  | nil => rfl
  | cons b bs ih => simp only [txStores, txStore_withRxBuf, bind_map_left, map_bind, ih]

theorem echo_withRxBuf (hm : s.SameFrame n m) {a k : Nat} (hk : a + k ≤ n) :
    (s.withRxBuf m).echo a k = State.withRxBuf m <$> s.echo a k := by
  simp only [echo, rxBytes_withRxBuf hm hk, txStores_withRxBuf, map_bind]

end State

theorem raiseException_withRxBuf (hn : 7 ≤ n) (hm : s.SameFrame n m) (e : Byte) :
    raiseException e (s.withRxBuf m) = Handled.withRxBuf m <$> raiseException e s := by
  simp only [raiseException, State.rxByte_withRxBuf hm (show 1 < n by omega), State.txStore_withRxBuf, bind_map_left,
    map_bind, map_pure]
  rfl

theorem diagReply_withRxBuf (hn : 7 ≤ n) (hm : s.SameFrame n m) (v : Word) :
    diagReply v (s.withRxBuf m) = Handled.withRxBuf m <$> diagReply v s := by
  simp only [diagReply, State.echo_withRxBuf hm (show 2 + 2 ≤ n by omega), State.txStoreWord,
    State.txStores_withRxBuf, bind_map_left, map_bind, map_pure]
  rfl

theorem readReply_withRxBuf (hn : 7 ≤ n) (hm : s.SameFrame n m) (x : Answer) :
    readReply x (s.withRxBuf m) = Handled.withRxBuf m <$> readReply x s := by
  unfold readReply
  rw [State.withRxBuf_cfg]
  split
  · exact raiseException_withRxBuf hn hm _
  · split
    · exact raiseException_withRxBuf hn hm _
    · split
      · exact raiseException_withRxBuf hn hm _
      · simp only [State.txStore_withRxBuf, State.txStores_withRxBuf, bind_map_left, map_bind, map_pure]
        rfl

theorem writeReply_withRxBuf (hn : 7 ≤ n) (hm : s.SameFrame n m) (x : Answer) :
    writeReply x (s.withRxBuf m) = Handled.withRxBuf m <$> writeReply x s := by
  unfold writeReply
  split
  · exact raiseException_withRxBuf hn hm _
  · simp only [State.echo_withRxBuf hm (show 2 + 4 ≤ n by omega), bind_map_left, map_bind, map_pure]
    rfl

end

/-! ## Every handler reads the frame alone -/

theorem readHandler_readsOnlyTheFrame (k : CbKind) : ReadsOnlyTheFrame (readHandler k) := by
  intro n s m hn hm
  unfold readHandler
  rw [State.fieldF_withRxBuf hn hm, State.fieldG_withRxBuf hn hm, map_bind]
  refine bind_congr fun start => ?_
  rw [map_bind]
  refine bind_congr fun count => ?_
  rw [State.withRxBuf_cfg]
  split
  · exact raiseException_withRxBuf (s := s.count .invalid) hn hm _
  · exact readReply_withRxBuf (s := s.callback _) hn hm _

theorem writeHandler_readsOnlyTheFrame (k : CbKind) : ReadsOnlyTheFrame (writeHandler k) := by
  intro n s m hn hm
  unfold writeHandler
  rw [State.fieldF_withRxBuf hn hm, State.fieldG_withRxBuf hn hm, map_bind]
  refine bind_congr fun start => ?_
  rw [map_bind]
  refine bind_congr fun count => ?_
  rw [State.withRxBuf_cfg]
  split
  · exact raiseException_withRxBuf (s := s.count .invalid) hn hm _
  · rw [State.dataRegion_withRxBuf hn hm, map_bind]
    refine bind_congr fun data => ?_
    exact writeReply_withRxBuf (s := s.callback _) hn hm _

theorem handleDiagEcho_readsOnlyTheFrame : ReadsOnlyTheFrame handleDiagEcho := by
  intro n s m hn hm
  simp only [handleDiagEcho, State.echo_withRxBuf hm (show 2 + 4 ≤ n by omega), bind_map_left, map_bind, map_pure]
  rfl

theorem handleDiagStat_readsOnlyTheFrame (i : StatIx) : ReadsOnlyTheFrame (handleDiagStat i) :=
  fun _ _ _ hn hm => diagReply_withRxBuf hn hm _

theorem handleDiagUser_readsOnlyTheFrame (subfn : Word) : ReadsOnlyTheFrame (handleDiagUser subfn) := by
  intro n s m hn hm
  unfold handleDiagUser
  rw [State.fieldG_withRxBuf hn hm, map_bind]
  refine bind_congr fun data => ?_
  dsimp only
  rw [State.withRxBuf_nextAnswer]
  split
  · exact raiseException_withRxBuf (s := s.callback _) hn hm _
  · exact diagReply_withRxBuf (s := s.callback _) hn hm _

theorem handleDiagUnbound_readsOnlyTheFrame : ReadsOnlyTheFrame handleDiagUnbound :=
  fun _ s _ hn hm => raiseException_withRxBuf (s := s.count .invalid) hn hm _

theorem handleUnrecognized_readsOnlyTheFrame : ReadsOnlyTheFrame handleUnrecognized :=
  fun _ _ _ hn hm => raiseException_withRxBuf hn hm _

theorem handleDiag_readsOnlyTheFrame : ReadsOnlyTheFrame handleDiag := by
  intro n s m hn hm
  unfold handleDiag
  rw [State.fieldF_withRxBuf hn hm, map_bind]
  refine bind_congr fun subfn => ?_
  rw [State.withRxBuf_cfg]
  split
  · exact handleDiagEcho_readsOnlyTheFrame _ _ _ hn hm
  · exact handleDiagStat_readsOnlyTheFrame _ _ _ _ hn hm
  · exact handleDiagUser_readsOnlyTheFrame _ _ _ _ hn hm
  · exact handleDiagUnbound_readsOnlyTheFrame _ _ _ hn hm

theorem dispatch_readsOnlyTheFrame : ReadsOnlyTheFrame dispatch := by
  intro n s m hn hm
  unfold dispatch
  rw [State.rxByte_withRxBuf hm (by omega), map_bind]
  refine bind_congr fun f => ?_
  rw [State.withRxBuf_cfg]
  split
  · exact readHandler_readsOnlyTheFrame _ _ _ _ hn hm
  · exact readHandler_readsOnlyTheFrame _ _ _ _ hn hm
  · exact readHandler_readsOnlyTheFrame _ _ _ _ hn hm
  · exact writeHandler_readsOnlyTheFrame _ _ _ _ hn hm
  · exact writeHandler_readsOnlyTheFrame _ _ _ _ hn hm
  · exact writeHandler_readsOnlyTheFrame _ _ _ _ hn hm
  · exact handleDiag_readsOnlyTheFrame _ _ _ hn hm
  · exact handleUnrecognized_readsOnlyTheFrame _ _ _ hn hm

theorem handlerOf_readsOnlyTheFrame (i : Instr) : ReadsOnlyTheFrame (handlerOf i) := by
  cases i with
  | nop | ingest _ | process | drain => exact dispatch_readsOnlyTheFrame
  | readCoils | readInputs | readHoldingRegisters => exact readHandler_readsOnlyTheFrame _
  | writeSingleRegister | writeMultipleCoils | writeMultipleRegisters => exact writeHandler_readsOnlyTheFrame _
  | diagEcho => exact handleDiagEcho_readsOnlyTheFrame
  | diagStatSeen | diagStatAddressed | diagStatOk | diagStatErr | diagStatInvalid =>
    exact handleDiagStat_readsOnlyTheFrame _
  | diagUser subfn => exact handleDiagUser_readsOnlyTheFrame subfn
  | diagUnbound _ => exact handleDiagUnbound_readsOnlyTheFrame
  | unrecognized _ => exact handleUnrecognized_readsOnlyTheFrame

/-! ## A whole PROCESS -/

theorem finishUnicast_withRxBuf (m : Memory) (r : Handled) :
    finishUnicast (r.withRxBuf m) = State.withRxBuf m <$> finishUnicast r := by
  simp only [finishUnicast, Handled.withRxBuf, State.txBytes_withRxBuf, State.txStores_withRxBuf, bind_map_left,
    map_bind, map_pure]
  rfl

/-- Every end of a PROCESS is taken again, with the same outcome, from a state whose receive buffer holds the same
frame. -/
theorem ProcessEnd.withRxBuf {h : Handler} {s t : State} {m : Memory} (hr : ReadsOnlyTheFrame h)
    (hm : s.SameFrame s.rxLen m) (e : ProcessEnd h s t) : ProcessEnd h (s.withRxBuf m) (t.withRxBuf m) := by
  have hbyte : ∀ {a b}, a < s.rxLen → s.rxByte a = .ok b → (s.withRxBuf m).rxByte a = .ok b :=
    fun ha hb => (State.rxByte_withRxBuf hm ha).trans hb
  have hhandler : ∀ {bc a f r}, 7 ≤ s.rxLen → h s.rxLen (handlerStart s bc a f) = .ok r →
      h s.rxLen (handlerStart (s.withRxBuf m) bc a f) = .ok (r.withRxBuf m) := by
    intro bc a f r hn hh
    refine (hr s.rxLen (handlerStart s bc a f) m hn hm).trans ?_
    rw [hh]
    rfl
  cases e with
  | null hc ht => exact .null hc (ht ▸ rfl)
  | short hc hn ht => exact .short hc hn (ht ▸ rfl)
  | crc hc hn hcrc ht => exact .crc hc hn hcrc (ht ▸ rfl)
  | unsupported hc hn hcrc a f ha hf hres ht =>
    exact .unsupported hc hn hcrc a f (hbyte (by omega) ha) (hbyte (by omega) hf) hres (ht ▸ rfl)
  | mismatch hc hn hcrc a f ha hf hres ht =>
    exact .mismatch hc hn hcrc a f (hbyte (by omega) ha) (hbyte (by omega) hf) hres (ht ▸ rfl)
  | unicast hc hn hcrc a f ha hf hres hcap r u hh hu ht =>
    have hu' : finishUnicast (r.withRxBuf m) = .ok (u.withRxBuf m) := by
      rw [finishUnicast_withRxBuf, hu]
      rfl
    exact .unicast hc hn hcrc a f (hbyte (by omega) ha) (hbyte (by omega) hf) hres hcap _ _ (hhandler hn hh) hu'
      (ht ▸ rfl)
  | broadcast hc hn hcrc a f ha hf hres hcap r hh ht =>
    exact .broadcast hc hn hcrc a f (hbyte (by omega) ha) (hbyte (by omega) hf) hres hcap _ (hhandler hn hh)
      (ht ▸ rfl)

/-! ## The statements -/

/-- Settles O9: the field read is the two bytes appended, and the two bytes stored make up the value. -/
theorem fieldsAreBigEndian : Obligations.FieldsAreBigEndian := by
  constructor
  · intro s a hi lo hcap hhi hlo
    have hread : s.rxWord a = .ok (beWord hi lo) :=
      State.rxWord_eq_ok.mpr
        ⟨hi, lo, State.rxByte_eq_ok.mpr ⟨by omega, hhi⟩, State.rxByte_eq_ok.mpr ⟨hcap, hlo⟩, rfl⟩
    exact ⟨_, hread, Laws.beWord_toNat hi lo⟩
  · intro s a v hcap
    have hval : v.toNat = (hiByte v).toNat * 256 + (loByte v).toNat := by
      rw [← Laws.beWord_toNat, Laws.beWord_hi_lo]
    have hbytes := Memory.readRange_writes s.txBuf a [hiByte v, loByte v]
    refine ⟨_, hiByte v, loByte v, State.txStoreWord_of_fits v hcap, hval,
      Memory.read_of_readRange hbytes 0 Nat.two_pos, Memory.read_of_readRange hbytes 1 Nat.one_lt_two, rfl, ?_⟩
    intro k hk hk1
    exact Memory.read_writes_other _ _ _ _ (by rw [List.length_cons, List.length_singleton]; omega)

/-- Settles O41: whichever way the PROCESS ends, it reads offsets below the frame length alone. -/
theorem staleBytesAreNeverRead : Obligations.StaleBytesAreNeverRead := by
  intro i s t m hi hm h
  have he := (exec_process_end hi h).withRxBuf (handlerOf_readsOnlyTheFrame i) hm
  exact (exec_of_runsProcess hi _).trans (outcomeOf_eq_next.mpr he.run)

end Sys2Proof.Machine

/-! The encoding: each code's row, each row's code, and the numbers of the tables. -/

namespace Sys2Proof.Machine

/-! ## The row of a diagnostic sub-function (R85) -/

theorem statIx_ofOffset_eq_some {n : Nat} {i : StatIx} (h : StatIx.ofOffset n = some i) : n = i.offset := by
  match n, h with
  | 0, h | 1, h | 2, h | 3, h | 4, h => cases h; rfl

theorem statIx_ofOffset_ne_none {n : Nat} (h : n ≤ 4) : StatIx.ofOffset n ≠ none := by
  match n, h with
  | 0, _ | 1, _ | 2, _ | 3, _ | 4, _ => exact Option.some_ne_none _

/-- The only sub-function that selects a counter is the counter's own (R30, R151). -/
theorem statIndex_eq_some {c : Config} (hwf : c.wf = true) {subfn : Word} {i : StatIx}
    (hi : statIndex c subfn = some i) : c.statsEn = true ∧ subfn = statSub c i := by
  unfold statIndex at hi
  split at hi
  · next hr =>
    have hoff := statIx_ofOffset_eq_some hi
    refine ⟨hr.1, BitVec.eq_of_toNat_eq ?_⟩
    rw [Laws.statSub_toNat hwf i, ← hoff]
    omega
  · cases hi

/-- A sub-function that is neither the echo's nor a counter's is left for the diagnostic callback. -/
theorem isUserSub_of_statIndex_eq_none {c : Config} {subfn : Word} (h0 : subfn ≠ 0)
    (hn : statIndex c subfn = none) : c.isUserSub subfn = true := by
  suffices hr : c.inStatRange subfn = false by rw [Config.isUserSub, decide_eq_true h0, hr]; rfl
  by_contra hr
  simp only [Config.inStatRange, Bool.not_eq_false, Bool.and_eq_true, decide_eq_true_eq] at hr
  obtain ⟨⟨hen, hlo⟩, hhi⟩ := hr
  rw [statIndex, if_pos ⟨hen, hlo⟩] at hn
  exact statIx_ofOffset_ne_none (by omega) hn

/-- The row of every sub-function is well-formed and is encoded by that sub-function (R85). -/
theorem decodeDiag_is_row {c : Config} (hwf : c.wf = true) (subfn : Word) :
    (decodeDiag c subfn).wf c = true ∧ runsProcess (decodeDiag c subfn) = true ∧
      encode c (decodeDiag c subfn) = encodeDiag c subfn := by
  by_cases h0 : subfn = 0
  · subst h0
    exact ⟨rfl, rfl, rfl⟩
  · rw [decodeDiag, DiagKind.ofSub, if_neg h0]
    match hi : statIndex c subfn with
    | some i =>
      obtain ⟨hen, rfl⟩ := statIndex_eq_some hwf hi
      cases i with
      | seen =>
        have hbase : c.statBase ≠ 0 := by simpa [statSub, StatIx.offset] using h0
        exact ⟨by rw [Instr.wf, hen, decide_eq_true hbase]; rfl, rfl, rfl⟩
      | addressed | ok | err | invalid => exact ⟨hen, rfl, rfl⟩
    | none =>
      have hsub := isUserSub_of_statIndex_eq_none h0 hi
      cases hb : c.cbBound.diag with
      | true => exact ⟨by simp [Instr.wf, hsub, hb], rfl, rfl⟩
      | false => exact ⟨by simp [Instr.wf, hsub, hb], rfl, rfl⟩

/-! ## The row of a function code (R84, R86) -/

/-- `i` is a well-formed function row whose encoding begins the request `f, hi, lo, …`. -/
def IsRowOfRequest (c : Config) (f hi lo : Byte) (i : Instr) : Prop :=
  i.wf c = true ∧ runsProcess i = true ∧ ∃ bytes, encode c i = .request bytes ∧ bytes <+: [f, hi, lo]

theorem decodeFunction_is_row {c : Config} (hwf : c.wf = true) (f hi lo : Byte) :
    IsRowOfRequest c f hi lo (decodeFunction c f (beWord hi lo)) := by
  have hfirst : [f] <+: [f, hi, lo] := ⟨[hi, lo], rfl⟩
  obtain ⟨hrc, hri, hrh, hwsr, hwmc, hwmr, hdiag⟩ := Laws.ofCode_of_wf hwf
  unfold decodeFunction
  by_cases hf : f ∈ c.fc.all
  · simp only [FuncCodes.all, List.mem_cons, List.not_mem_nil, or_false] at hf
    rcases hf with rfl | rfl | rfl | rfl | rfl | rfl | rfl
    · rw [hrc]; exact ⟨rfl, rfl, _, rfl, hfirst⟩
    · rw [hri]; exact ⟨rfl, rfl, _, rfl, hfirst⟩
    · rw [hrh]; exact ⟨rfl, rfl, _, rfl, hfirst⟩
    · rw [hwsr]; exact ⟨rfl, rfl, _, rfl, hfirst⟩
    · rw [hdiag]
      obtain ⟨hrow, hrun, henc⟩ := decodeDiag_is_row hwf (beWord hi lo)
      exact ⟨hrow, hrun, _, henc, by simp⟩
    · rw [hwmc]; exact ⟨rfl, rfl, _, rfl, hfirst⟩
    · rw [hwmr]; exact ⟨rfl, rfl, _, rfl, hfirst⟩
  · rw [Laws.ofCode_other hf]
    exact ⟨decide_eq_true hf, rfl, _, rfl, hfirst⟩

/-! ## The row of a command (R71) -/

theorem decodeCommand_is_row (c : Config) (cmd : BitVec 2) (din : Byte) :
    (decodeCommand cmd din).wf c = true ∧
      encode c (decodeCommand cmd din) = .command cmd (if cmd = 1 then din else 0) := by
  have hcmd : cmd = 0 ∨ cmd = 1 ∨ cmd = 2 ∨ cmd = 3 := by revert cmd; decide
  rcases hcmd with rfl | rfl | rfl | rfl
  · exact ⟨rfl, rfl⟩
  · exact ⟨rfl, rfl⟩
  · exact ⟨rfl, rfl⟩
  · exact ⟨rfl, rfl⟩

/-! ## The statements -/

/-- Settles O5: the round trip of each row, one constructor at a time. -/
theorem decodeOfEncode : Obligations.DecodeOfEncode := by
  intro c i hwf hi
  cases i with
  | nop => exact Laws.RoundTrip.nop c hwf hi
  | ingest din => exact Laws.RoundTrip.ingest din c hwf hi
  | process => exact Laws.RoundTrip.process c hwf hi
  | drain => exact Laws.RoundTrip.drain c hwf hi
  | readCoils => exact Laws.RoundTrip.readCoils c hwf hi
  | readInputs => exact Laws.RoundTrip.readInputs c hwf hi
  | readHoldingRegisters => exact Laws.RoundTrip.readHoldingRegisters c hwf hi
  | writeSingleRegister => exact Laws.RoundTrip.writeSingleRegister c hwf hi
  | writeMultipleCoils => exact Laws.RoundTrip.writeMultipleCoils c hwf hi
  | writeMultipleRegisters => exact Laws.RoundTrip.writeMultipleRegisters c hwf hi
  | diagEcho => exact Laws.RoundTrip.diagEcho c hwf hi
  | diagStatSeen => exact Laws.RoundTrip.diagStatSeen c hwf hi
  | diagStatAddressed => exact Laws.RoundTrip.diagStatAddressed c hwf hi
  | diagStatOk => exact Laws.RoundTrip.diagStatOk c hwf hi
  | diagStatErr => exact Laws.RoundTrip.diagStatErr c hwf hi
  | diagStatInvalid => exact Laws.RoundTrip.diagStatInvalid c hwf hi
  | diagUser subfn => exact Laws.RoundTrip.diagUser subfn c hwf hi
  | diagUnbound subfn => exact Laws.RoundTrip.diagUnbound subfn c hwf hi
  | unrecognized f => exact Laws.RoundTrip.unrecognized f c hwf hi

/-- Settles O6: a transaction has one of the four command rows, a request the row of its code or sub-function. -/
theorem everyCodeHasItsRow : Obligations.EveryCodeHasItsRow := by
  constructor
  · intro c cmd din
    exact ⟨_, rfl, decodeCommand_is_row c cmd din⟩
  · intro c f hi lo rest hwf
    obtain ⟨hrow, hrun, bytes, henc, hpre⟩ := decodeFunction_is_row hwf f hi lo
    have hlong : [f, hi, lo] <+: f :: hi :: lo :: rest := ⟨rest, rfl⟩
    exact ⟨_, bytes, rfl, hrow, hrun, henc, hpre.trans hlong⟩

/-- Settles O7: the decoder computes each of the ten words. -/
theorem knownWordsDecode : Obligations.KnownWordsDecode :=
  ⟨rfl, rfl, rfl, rfl, rfl, rfl, rfl, rfl, rfl, rfl⟩

/-- Settles O8: the numbers are the table's, in order. -/
theorem resultCodeNumbers : Obligations.ResultCodeNumbers := rfl

/-- Settles O10: the decoder ignores `din`, and NOP is a bare return. -/
theorem nopReturnsOk : Obligations.NopReturnsOk :=
  ⟨fun _ _ => rfl, fun _ => rfl⟩

/-- Settles O53: an idle port presents the code `00` and stays as it is. -/
theorem idleStepIsNop : Obligations.IdleStepIsNop := by
  intro s hwf hidle
  have hfetch : s.fetch = (.command 0 0, s) := by rw [State.fetch, hidle]
  exact step_of_fetch_command hwf hfetch

end Sys2Proof.Machine

/-! The callback exchange of each row (R89): the request it may issue, and that the reply depends on the answer only
through the fields that the request's kind uses. -/

namespace Sys2Proof.Machine

/-! ## The reply to an answer, by kind -/

/-- The reply of a diagnostic callback's answer (R152). -/
def diagUserReply (x : Answer) (s : State) : Except Fault Handled :=
  if x.ex ≠ 0x00 then raiseException x.ex s else diagReply x.val s

/-- What a handler makes of the answer to a request of kind `k` (R141, R145, R152). -/
def replyOf : CbKind → Answer → State → Except Fault Handled
  | .rc => readReply
  | .ri => readReply
  | .rh => readReply
  | .wmc => writeReply
  | .wsr => writeReply
  | .wmr => writeReply
  | .diag => diagUserReply

theorem readReply_congr {x y : Answer} (hex : x.ex = y.ex)
    (hu : x.ex = 0x00 → x.isNull = y.isNull ∧ x.data = y.data) (s : State) : readReply x s = readReply y s := by
  by_cases h0 : x.ex = 0x00
  · obtain ⟨hnull, hdata⟩ := hu h0
    simp only [readReply, hex, hnull, hdata]
  · rw [readReply, if_pos h0, readReply, if_pos (hex ▸ h0), hex]

theorem writeReply_congr {x y : Answer} (hex : x.ex = y.ex) (s : State) : writeReply x s = writeReply y s := by
  simp only [writeReply, hex]

theorem diagUserReply_congr {x y : Answer} (hex : x.ex = y.ex) (hu : x.ex = 0x00 → x.val = y.val) (s : State) :
    diagUserReply x s = diagUserReply y s := by
  by_cases h0 : x.ex = 0x00
  · simp only [diagUserReply, hex, hu h0]
  · rw [diagUserReply, if_pos h0, diagUserReply, if_pos (hex ▸ h0), hex]

/-- Answers that a kind cannot tell apart have the same reply (R89). -/
theorem replyOf_congr {k : CbKind} {x y : Answer} (h : answersAgree k x y) (s : State) :
    replyOf k x s = replyOf k y s := by
  obtain ⟨hex, hu⟩ := h
  cases k with
  | rc | ri | rh => exact readReply_congr hex hu s
  | wmc | wsr | wmr => exact writeReply_congr hex s
  | diag => exact diagUserReply_congr hex hu s

/-! ## No reply issues a request -/

theorem raiseException_requests {e : Byte} {s : State} {r : Handled} (h : raiseException e s = .ok r) :
    r.state.requests = s.requests := by
  obtain ⟨f, -, -, rfl⟩ := raiseException_eq_ok.mp h
  rfl

theorem raiseUnbound_requests {s : State} {r : Handled} (h : raiseUnbound s = .ok r) :
    r.state.requests = s.requests :=
  raiseException_requests (s := s.count .invalid) h

theorem diagReply_requests {v : Word} {s : State} {r : Handled} (h : diagReply v s = .ok r) :
    r.state.requests = s.requests := by
  obtain ⟨bs, -, rfl⟩ := diagReply_eq_ok h
  rfl

theorem handleDiagEcho_requests {n : Nat} {s : State} {r : Handled} (h : handleDiagEcho n s = .ok r) :
    r.state.requests = s.requests := by
  obtain ⟨s1, h1, h⟩ := bind_eq_ok.mp h
  cases h
  obtain ⟨bs, -, rfl⟩ := State.echo_eq_ok h1
  rfl

theorem readReply_requests {x : Answer} {s : State} {r : Handled} (h : readReply x s = .ok r) :
    r.state.requests = s.requests := by
  unfold readReply at h
  split at h
  · exact raiseException_requests h
  · split at h
    · exact raiseException_requests h
    · split at h
      · exact raiseException_requests h
      · obtain ⟨s1, h1, h⟩ := bind_eq_ok.mp h
        obtain ⟨s2, h2, h⟩ := bind_eq_ok.mp h
        obtain ⟨-, rfl⟩ := State.txStore_eq_ok.mp h1
        obtain ⟨rfl, -⟩ := State.txStores_eq_ok h2
        cases h
        rfl

theorem writeReply_requests {x : Answer} {s : State} {r : Handled} (h : writeReply x s = .ok r) :
    r.state.requests = s.requests := by
  unfold writeReply at h
  split at h
  · exact raiseException_requests h
  · exact handleDiagEcho_requests (n := 0) h

theorem diagUserReply_requests {x : Answer} {s : State} {r : Handled} (h : diagUserReply x s = .ok r) :
    r.state.requests = s.requests := by
  unfold diagUserReply at h
  split at h
  · exact raiseException_requests h
  · exact diagReply_requests h

theorem replyOf_requests {k : CbKind} {x : Answer} {s : State} {r : Handled} (h : replyOf k x s = .ok r) :
    r.state.requests = s.requests := by
  cases k with
  | rc | ri | rh => exact readReply_requests h
  | wmc | wsr | wmr => exact writeReply_requests h
  | diag => exact diagUserReply_requests h

/-! ## Other answers at the port -/

/-- The same state with other answers waiting at the callback port. -/
def State.withAnswers (s : State) (as : List Answer) : State := { s with answers := as }

theorem State.rxBytes_withAnswers (s : State) (as : List Answer) (a n : Nat) :
    (s.withAnswers as).rxBytes a n = s.rxBytes a n := by
  induction n generalizing a with
  | zero => rfl
  | succ n ih =>
    simp only [State.rxBytes, ih]
    rfl

/-- From `s`, with a frame of `n` bytes, `h` issues the request `q` and replies to its answer, whatever the answer. -/
def Exchanges (h : Handler) (n : Nat) (s : State) (q : CbRequest) : Prop :=
  ∀ as, h n (s.withAnswers as) = replyOf q.kind (s.withAnswers as).nextAnswer ((s.withAnswers as).callback q)

/-- Every success of `h` issues no request, or exchanges one that satisfies `P` of the frame length. -/
def AsksOnly (h : Handler) (P : Nat → CbRequest → Prop) : Prop :=
  ∀ n s r, h n s = .ok r → r.state.requests = s.requests ∨ ∃ q, P n q ∧ Exchanges h n s q

/-- The request an exchange issues is the one recorded (R156). -/
theorem Exchanges.requests {h : Handler} {n : Nat} {s : State} {q : CbRequest} {r : Handled} (hx : Exchanges h n s q)
    (hr : h n s = .ok r) : r.state.requests = q :: s.requests := by
  have hreply := hx s.answers
  exact replyOf_requests (hreply.symm.trans hr)

/-- A handler that asked `q` does the same with an answer that `q`'s kind cannot tell apart (R89). -/
theorem Exchanges.congr {h : Handler} {n : Nat} {s : State} {q : CbRequest} (hx : Exchanges h n s q) {x y : Answer}
    (hxy : answersAgree q.kind x y) (xs : List Answer) :
    h n (s.withAnswers (y :: xs)) = h n (s.withAnswers (x :: xs)) := by
  rw [hx, hx]
  exact (replyOf_congr hxy _).symm

theorem AsksOnly.exchange {h : Handler} {P : Nat → CbRequest → Prop} (hP : AsksOnly h P) {n : Nat} {s : State}
    {r : Handled} {q : CbRequest} (hr : h n s = .ok r) (hq : r.state.requests = q :: s.requests) :
    P n q ∧ Exchanges h n s q := by
  rcases hP n s r hr with hnone | ⟨q', hPq, hx⟩
  · exact absurd (hnone.symm.trans hq) (List.cons_ne_self _ _).symm
  · obtain rfl : q' = q := (List.cons.inj ((hx.requests hr).symm.trans hq)).1
    exact ⟨hPq, hx⟩

/-! ## What each handler asks -/

theorem readHandler_asks {k : CbKind} (hk : replyOf k = readReply) : AsksOnly (readHandler k) fun _ q => q.kind = k := by
  intro n s r h
  obtain ⟨start, hF, h⟩ := bind_eq_ok.mp h
  obtain ⟨count, hG, h⟩ := bind_eq_ok.mp h
  split at h
  · exact Or.inl (raiseUnbound_requests h)
  · next hb =>
    refine Or.inr ⟨⟨k, start, count, []⟩, rfl, fun as => ?_⟩
    have hF' : (s.withAnswers as).fieldF = .ok start := hF
    have hG' : (s.withAnswers as).fieldG = .ok count := hG
    have hb' : ¬ (s.withAnswers as).cfg.cbBound.bound k = false := hb
    simp only [readHandler, hF', hG', bind, Except.bind, if_neg hb', hk]

theorem length_of_dataRegion {s : State} {n : Nat} {data : List Byte} (h : s.dataRegion n = .ok data) :
    data.length = n - 8 :=
  Memory.readRange_length (State.readRange_of_rxBytes h)

theorem writeHandler_asks {k : CbKind} (hk : replyOf k = writeReply) :
    AsksOnly (writeHandler k) fun n q => q.kind = k ∧ q.dlen = n - 8 := by
  intro n s r h
  obtain ⟨start, hF, h⟩ := bind_eq_ok.mp h
  obtain ⟨count, hG, h⟩ := bind_eq_ok.mp h
  split at h
  · exact Or.inl (raiseUnbound_requests h)
  · next hb =>
    obtain ⟨data, hdata, h⟩ := bind_eq_ok.mp h
    refine Or.inr ⟨⟨k, start, count, data⟩, ⟨rfl, length_of_dataRegion hdata⟩, fun as => ?_⟩
    have hF' : (s.withAnswers as).fieldF = .ok start := hF
    have hG' : (s.withAnswers as).fieldG = .ok count := hG
    have hb' : ¬ (s.withAnswers as).cfg.cbBound.bound k = false := hb
    have hdata' : (s.withAnswers as).dataRegion n = .ok data := (s.rxBytes_withAnswers as _ _).trans hdata
    simp only [writeHandler, hF', hG', hdata', bind, Except.bind, if_neg hb', hk]

theorem handleDiagUser_asks (subfn : Word) :
    AsksOnly (handleDiagUser subfn) fun _ q => q.kind = .diag ∧ q.a = subfn := by
  intro n s r h
  obtain ⟨data, hG, -⟩ := bind_eq_ok.mp h
  refine Or.inr ⟨⟨.diag, subfn, data, []⟩, ⟨rfl, rfl⟩, fun as => ?_⟩
  have hG' : (s.withAnswers as).fieldG = .ok data := hG
  simp only [handleDiagUser, hG', bind, Except.bind]
  rfl

/-- A handler without a callback. -/
theorem asksOnly_of_requests {h : Handler} (P : Nat → CbRequest → Prop)
    (hnone : ∀ n s r, h n s = .ok r → r.state.requests = s.requests) : AsksOnly h P :=
  fun n s r hr => Or.inl (hnone n s r hr)

/-- A request of any kind and content. -/
def anyRequest : Nat → CbRequest → Prop := fun _ _ => True

theorem AsksOnly.any {h : Handler} {P : Nat → CbRequest → Prop} (hP : AsksOnly h P) : AsksOnly h anyRequest :=
  fun n s r hr => (hP n s r hr).imp_right fun ⟨q, _, hx⟩ => ⟨q, trivial, hx⟩

theorem handleDiagEcho_asks : AsksOnly handleDiagEcho anyRequest :=
  asksOnly_of_requests _ fun _ _ _ => handleDiagEcho_requests

theorem handleDiagStat_asks (i : StatIx) : AsksOnly (handleDiagStat i) anyRequest :=
  asksOnly_of_requests _ fun _ _ _ => diagReply_requests

theorem handleDiagUnbound_asks : AsksOnly handleDiagUnbound anyRequest :=
  asksOnly_of_requests _ fun _ _ _ => raiseUnbound_requests

theorem handleUnrecognized_asks : AsksOnly handleUnrecognized anyRequest :=
  asksOnly_of_requests _ fun _ _ _ => raiseException_requests

/-- The handler of every row but PROCESS itself. -/
theorem handlerOf_asks_of_function {i : Instr} (hi : runsProcess i = true) (hp : i ≠ .process) :
    AsksOnly (handlerOf i) anyRequest := by
  cases i with
  | nop | ingest _ | drain => cases hi
  | process => exact absurd rfl hp
  | readCoils | readInputs | readHoldingRegisters => exact (readHandler_asks rfl).any
  | writeSingleRegister | writeMultipleCoils | writeMultipleRegisters => exact (writeHandler_asks rfl).any
  | diagEcho => exact handleDiagEcho_asks
  | diagStatSeen | diagStatAddressed | diagStatOk | diagStatErr | diagStatInvalid => exact handleDiagStat_asks _
  | diagUser subfn => exact (handleDiagUser_asks subfn).any
  | diagUnbound _ => exact handleDiagUnbound_asks
  | unrecognized _ => exact handleUnrecognized_asks

/-! ## The dispatch runs the decoded row's handler (R127, R149) -/

theorem decodeDiag_is_function (c : Config) (subfn : Word) :
    runsProcess (decodeDiag c subfn) = true ∧ decodeDiag c subfn ≠ .process := by
  unfold decodeDiag
  cases DiagKind.ofSub c subfn with
  | echo | user | unbound => exact ⟨rfl, nofun⟩
  | stat i => cases i <;> exact ⟨rfl, nofun⟩

theorem decodeFunction_is_function (c : Config) (f : Byte) (subfn : Word) :
    runsProcess (decodeFunction c f subfn) = true ∧ decodeFunction c f subfn ≠ .process := by
  unfold decodeFunction
  cases FuncKind.ofCode c.fc f with
  | diag => exact decodeDiag_is_function c subfn
  | rc | ri | rh | wsr | wmc | wmr | other => exact ⟨rfl, nofun⟩

theorem handleDiag_eq_handlerOf {s : State} {subfn : Word} (hF : s.fieldF = .ok subfn) (n : Nat) :
    handleDiag n s = handlerOf (decodeDiag s.cfg subfn) n s := by
  simp only [handleDiag, hF, bind, Except.bind, decodeDiag]
  cases DiagKind.ofSub s.cfg subfn with
  | echo | user | unbound => rfl
  | stat i => cases i <;> rfl

/-- The sub-function is read for a diagnostic code alone. -/
theorem dispatch_eq_handlerOf {s : State} {f : Byte} {subfn : Word} (hf : s.rxByte 1 = .ok f)
    (hF : FuncKind.ofCode s.cfg.fc f = .diag → s.fieldF = .ok subfn) (n : Nat) :
    dispatch n s = handlerOf (decodeFunction s.cfg f subfn) n s := by
  simp only [dispatch, hf, bind, Except.bind, decodeFunction]
  cases hk : FuncKind.ofCode s.cfg.fc f with
  | diag => exact handleDiag_eq_handlerOf (hF hk) n
  | rc | ri | rh | wsr | wmc | wmr | other => rfl

theorem dispatch_reads_subfunction {n : Nat} {s : State} {r : Handled} (h : dispatch n s = .ok r) :
    ∃ f subfn, s.rxByte 1 = .ok f ∧ (FuncKind.ofCode s.cfg.fc f = .diag → s.fieldF = .ok subfn) := by
  obtain ⟨f, hf, h⟩ := bind_eq_ok.mp h
  by_cases hk : FuncKind.ofCode s.cfg.fc f = .diag
  · rw [hk] at h
    obtain ⟨subfn, hF, -⟩ := bind_eq_ok.mp h
    exact ⟨f, subfn, hf, fun _ => hF⟩
  · exact ⟨f, 0, hf, fun hd => absurd hd hk⟩

theorem dispatch_asks : AsksOnly dispatch anyRequest := by
  intro n s r h
  obtain ⟨f, subfn, hf, hF⟩ := dispatch_reads_subfunction h
  obtain ⟨hrun, hne⟩ := decodeFunction_is_function s.cfg f subfn
  have hsame : ∀ as, dispatch n (s.withAnswers as) = handlerOf (decodeFunction s.cfg f subfn) n (s.withAnswers as) :=
    fun as => dispatch_eq_handlerOf (s := s.withAnswers as) hf hF n
  refine (handlerOf_asks_of_function hrun hne n s r ((hsame s.answers).symm.trans h)).imp_right ?_
  rintro ⟨q, hq, hx⟩
  exact ⟨q, hq, fun as => (hsame as).trans (hx as)⟩

theorem handlerOf_asks {i : Instr} (hi : runsProcess i = true) : AsksOnly (handlerOf i) anyRequest := by
  by_cases hp : i = .process
  · subst hp
    exact dispatch_asks
  · exact handlerOf_asks_of_function hi hp

/-! ## A PROCESS that issues a request -/

/-- A PROCESS that issues a request ran its handler on an accepted frame, and with other answers at the port it ends the
same wherever the handler does. -/
theorem ProcessEnd.asked {h : Handler} {s t : State} {q : CbRequest} (e : ProcessEnd h s t)
    (hq : t.requests = q :: s.requests) :
    ∃ bc a f r, h s.rxLen (handlerStart s bc a f) = .ok r ∧ r.state.requests = q :: s.requests ∧
      ∀ as, h s.rxLen ((handlerStart s bc a f).withAnswers as) = .ok r → ProcessEnd h (s.withAnswers as) t := by
  have hnone : t.requests ≠ s.requests := by
    rw [hq]
    exact List.cons_ne_self _ _
  cases e with
  | null hc ht => exact absurd (ht ▸ rfl) hnone
  | short hc hn ht => exact absurd (ht ▸ rfl) hnone
  | crc hc hn hr ht => exact absurd (ht ▸ rfl) hnone
  | unsupported hc hn hr a f ha hf hres ht => exact absurd (ht ▸ rfl) hnone
  | mismatch hc hn hr a f ha hf hres ht => exact absurd (ht ▸ rfl) hnone
  | unicast hc hn hr a f ha hf hres hcap r u hh hu ht =>
    have hreq : t.requests = r.state.requests := by
      obtain ⟨body, -, -, rfl⟩ := finishUnicast_eq_ok.mp hu
      rw [ht]
      rfl
    exact ⟨false, a, f, r, hh, hreq ▸ hq, fun as hh' => .unicast hc hn hr a f ha hf hres hcap r u hh' hu ht⟩
  | broadcast hc hn hr a f ha hf hres hcap r hh ht =>
    have hreq : t.requests = r.state.requests := by
      rw [ht]
      rfl
    exact ⟨true, a, f, r, hh, hreq ▸ hq, fun as hh' => .broadcast hc hn hr a f ha hf hres hcap r hh' ht⟩

/-- What a row's request says, from what its handler asks. -/
theorem exec_asks {i : Instr} {s t : State} {q : CbRequest} {P : Nat → CbRequest → Prop} (h : exec i s = .next t)
    (hq : t.requests = q :: s.requests) (hi : runsProcess i = true) (hP : AsksOnly (handlerOf i) P) : P s.rxLen q := by
  obtain ⟨bc, a, f, r, hh, hr, -⟩ := (exec_process_end hi h).asked hq
  exact (hP.exchange hh hr).1

/-! ## The statements -/

/-- Settles O40: only a PROCESS issues a request, and its handler's reply cannot tell the two answers apart. -/
theorem unusedAnswerFieldsAreIgnored : Obligations.UnusedAnswerFieldsAreIgnored := by
  intro i s t x y xs q h hq hxy
  cases hi : runsProcess i with
  | true =>
    obtain ⟨bc, a, f, r, hh, hr, hend⟩ := (exec_process_end hi h).asked hq
    obtain ⟨-, hx⟩ := (handlerOf_asks hi).exchange hh hr
    have he := hend (y :: xs) ((hx.congr hxy xs).trans hh)
    exact (exec_of_runsProcess hi _).trans (outcomeOf_eq_next.mpr he.run)
  | false =>
    obtain ⟨-, -, -, hnot, -⟩ := onlyProcessWritesTheResponse i _ t hi h
    exact absurd (hnot.requests.symm.trans hq) (List.cons_ne_self _ _).symm

/-- Settles O58: the numbers are the table's; a row's request is what its handler asks. -/
theorem requestsCarryTheirKindNumber : Obligations.RequestsCarryTheirKindNumber := by
  refine ⟨rfl, ?_, ?_, ?_⟩
  · intro x hx s t q h hq
    simp only [List.mem_cons, List.not_mem_nil, or_false] at hx
    rcases hx with rfl | rfl | rfl
    · exact congrArg CbKind.code (exec_asks h hq rfl (readHandler_asks rfl))
    · exact congrArg CbKind.code (exec_asks h hq rfl (readHandler_asks rfl))
    · exact congrArg CbKind.code (exec_asks h hq rfl (readHandler_asks rfl))
  · intro x hx s t q h hq
    simp only [List.mem_cons, List.not_mem_nil, or_false] at hx
    rcases hx with rfl | rfl | rfl
    · exact (exec_asks h hq rfl (writeHandler_asks rfl)).imp_left (congrArg CbKind.code)
    · exact (exec_asks h hq rfl (writeHandler_asks rfl)).imp_left (congrArg CbKind.code)
    · exact (exec_asks h hq rfl (writeHandler_asks rfl)).imp_left (congrArg CbKind.code)
  · intro subfn s t q h hq
    exact (exec_asks h hq rfl (handleDiagUser_asks subfn)).imp_left (congrArg CbKind.code)

end Sys2Proof.Machine

/-! The results a command may return (R72), and the unicast answer to an unrecognized function code (R154, R172). -/

namespace Sys2Proof.Machine

/-! ## The results -/

/-- The results of a PROCESS (R72). -/
def processResults : List Result :=
  [.ok, .answeredError, .errNull, .errInvalidPacket, .errCrc, .errAddressMismatch, .errBroadcastUnsupported]

theorem HandlerOutcome.result_mem (o : HandlerOutcome) : o.result ∈ processResults := by
  cases o <;> decide

theorem ProcessEnd.output {h : Handler} {s t : State} (hs : HandlerSound h) (e : ProcessEnd h s t) :
    ∃ r ∈ processResults, t.outputs = ⟨r, 0x00⟩ :: s.outputs := by
  cases e with
  | null hc ht => exact ⟨.errNull, by decide, ht ▸ rfl⟩
  | short hc hn ht => exact ⟨.errInvalidPacket, by decide, ht ▸ rfl⟩
  | crc hc hn hr ht => exact ⟨.errCrc, by decide, ht ▸ rfl⟩
  | unsupported hc hn hr a f ha hf hres ht => exact ⟨.errBroadcastUnsupported, by decide, ht ▸ rfl⟩
  | mismatch hc hn hr a f ha hf hres ht => exact ⟨.errAddressMismatch, by decide, ht ▸ rfl⟩
  | unicast hc hn hr a f ha hf hres hcap r u hh hu ht =>
    obtain ⟨body, -, -, rfl⟩ := finishUnicast_eq_ok.mp hu
    exact ⟨_, r.outcome.result_mem, ht ▸ ((hs _ _ _ hh).processed _ _ _ _ _).outputs⟩
  | broadcast hc hn hr a f ha hf hres hcap r hh ht =>
    exact ⟨_, r.outcome.result_mem, ht ▸ ((hs _ _ _ hh).processed _ _ _ _ _).outputs⟩

/-- An INGEST returns one of two results (R112). -/
theorem State.advance_output (s : State) :
    ∃ r ∈ [Result.ok, .errRxOverflow], s.advance.outputs = ⟨r, 0x00⟩ :: s.outputs := by
  unfold State.advance
  split
  · exact ⟨.errRxOverflow, by decide, rfl⟩
  · exact ⟨.ok, by decide, rfl⟩

/-! ## The unicast answer -/

theorem resolveAddress_own (c : Config) (f : Byte) : resolveAddress c c.address f = .unicast :=
  if_pos rfl

/-- A unicast frame that passes length and CRC is answered with the body its handler left in `tx_buf`: the CRC follows
it, the outcome's counter and `stat_seen` are incremented, and the callback port is as the handler left it (R172, R174). -/
theorem processWith_answers {h : Handler} {s : State} {f b2 b3 b4 b5 : Byte} {r : Handled} {body : List Byte}
    (hs : HandlerSound h) (hI : s.Inv) (hreq : s.HasRequest s.cfg.address f b2 b3 b4 b5)
    (hh : h s.rxLen (handlerStart s false s.cfg.address f) = .ok r)
    (hbody : r.state.txBuf.readRange 0 r.len = some body) :
    ∃ t, processWith h s = .ok t ∧ s.Answered t body r.outcome ∧
      t.stats = (r.state.stats.count s.cfg r.outcome.counter).count s.cfg .seen ∧
      t.requests = r.state.requests ∧ t.answers = r.state.answers := by
  obtain ⟨data, hdata⟩ := region_of_request hI hreq
  have hready := ready_handlerStart (bc := false) hI hreq hdata
  have he := hs _ _ _ hh
  have hcfg : r.state.cfg = s.cfg := he.frame.1
  have hfits : r.len + 2 ≤ r.state.cfg.txCap := hcfg ▸ he.fits hready.tx
  have hlen : body.length = r.len := Memory.readRange_length hbody
  have hfinish := finishUnicast_eq_ok.mpr ⟨body, State.txBytes_of_readRange (by omega) hbody, hfits, rfl⟩
  have htx : 1 < s.cfg.txCap := by
    have htx8 : 8 ≤ s.cfg.txCap := hready.tx
    omega
  have hend : ProcessEnd h s _ := .unicast hreq.ctx hreq.len hreq.residue _ _ (hready.byte 0 (by omega))
    (hready.byte 1 (by omega)) (resolveAddress_own _ _) htx r _ hh hfinish rfl
  refine ⟨_, hend.run, ⟨he.processed _ _ _ _ _, ?_, ?_, ?_, ?_⟩, ?_, rfl, rfl⟩
  · exact congrArg (· + 2) hlen.symm
  · exact congrArg (· + 2) hlen.symm
  · rw [hlen, crc16By_eq]
    exact Memory.readRange_append_writes (crcBytes (crc16 body)) hbody
  · intro k hk
    rw [hlen] at hk
    exact (Memory.read_writes_other _ _ _ _ (Or.inr hk)).trans (he.body.2 k (by omega))
  · simp only [State.ret_stats, State.count_stats, hcfg]

/-! ## Function codes in the upper half (R86) -/

theorem or_0x80_of_upperHalf {f : Byte} (h : 0x80 ≤ f.toNat) : f ||| 0x80 = f := by
  revert f; decide

theorem dispatch_unrecognized {n : Nat} {s : State} {f : Byte} (hf : s.rxByte 1 = .ok f) (hall : f ∉ s.cfg.fc.all) :
    dispatch n s = handleUnrecognized n s := by
  simp only [dispatch, hf, bind, Except.bind, Laws.ofCode_other hall]

/-! ## The statements -/

/-- Settles O47: each of the five ways an instruction ends returns one output. -/
theorem everyCommandReturnsOneResult : Obligations.EveryCommandReturnsOneResult := by
  intro i s t h
  cases exec_end h with
  | nop => exact ⟨_, rfl, Or.inl rfl, by decide⟩
  | ingest b _ hlen =>
    obtain ⟨r, hr, hout⟩ := State.advance_output { s with rxBuf := s.rxBuf.write s.rxLen b, crc := crc16Add b s.seed }
    exact ⟨_, hout, Or.inl rfl, hr⟩
  | ended => exact ⟨_, rfl, Or.inl rfl, by decide⟩
  | drained => exact ⟨_, rfl, Or.inr ⟨rfl, rfl⟩, List.mem_cons_self⟩
  | process _ _ _ hi he =>
    obtain ⟨r, hr, hout⟩ := he.output (sound_handlerOf i)
    exact ⟨_, hout, Or.inl rfl, by rw [if_pos hi]; exact hr⟩

/-- Settles O59: such a code is none of the seven, so the handler is the one for unrecognized codes; setting bit 7 leaves
the function byte as it is. -/
theorem upperHalfCodesAreIllegalFunction : Obligations.UpperHalfCodesAreIllegalFunction := by
  intro s f b2 b3 b4 b5 hI hlow hhigh hreq
  have hall : f ∉ s.cfg.fc.all := fun hmem => absurd (hlow f hmem) (by omega)
  obtain ⟨data, hdata⟩ := region_of_request hI hreq
  have hready := ready_handlerStart (bc := false) hI hreq hdata
  have hh : dispatch s.rxLen (handlerStart s false s.cfg.address f) =
      .ok (raised (handlerStart s false s.cfg.address f) f 0x01) :=
    (dispatch_unrecognized (hready.byte 1 (by omega)) hall).trans (handleUnrecognized_ok hready)
  have hbody : ((s.txBuf.writes 0 [s.cfg.address, f]).writes 1 [f ||| 0x80, 0x01]).readRange 0 3 =
      some [s.cfg.address, f, 0x01] := by
    rw [or_0x80_of_upperHalf hhigh]
    exact readRange_header_error s.txBuf s.cfg.address f [f, 0x01]
  obtain ⟨t, hrun, hans, hstats, hrequests, hanswers⟩ := processWith_answers sound_dispatch hI hreq hh hbody
  exact ⟨t, outcomeOf_eq_next.mpr hrun, hans, hstats, hrequests, hanswers⟩

end Sys2Proof.Machine

/-! The CRC engine's statements (R100 to R106): the table, the residue, linearity and bijectivity, and that a step reads
the strategy only to choose the form of a fold. -/

namespace Sys2Proof.Machine

/-! ## No shift loses a bit (R100) -/

/-- The carry comes back as the top bit: the polynomial has it set, and a right shift leaves it clear. -/
theorem crcShift_getLsbD_top (c : Word) : (crcShift c).getLsbD 15 = c.getLsbD 0 := by
  unfold crcShift
  cases c.getLsbD 0 <;> simp [crcPoly]

theorem crcShift_injective : Function.Injective crcShift := by
  intro x y h
  have h0 : x.getLsbD 0 = y.getLsbD 0 := by
    rw [← crcShift_getLsbD_top, h, crcShift_getLsbD_top]
  have hshift : x >>> 1 = y >>> 1 := by
    unfold crcShift at h
    rw [h0] at h
    split at h
    · exact (BitVec.xor_left_inj _).mp h
    · exact h
  refine BitVec.eq_of_getLsbD_eq fun i _ => ?_
  cases i with
  | zero => exact h0
  | succ i => simpa [Nat.add_comm] using congrArg (BitVec.getLsbD · i) hshift

theorem crc16Add_injective (b : Byte) : Function.Injective (crc16Add b) :=
  (crcShift_injective.iterate 8).comp fun _ _ h => (BitVec.xor_left_inj _).mp h

theorem crc16Add_xor (b1 b2 : Byte) (c1 c2 : Word) :
    crc16Add (b1 ^^^ b2) (c1 ^^^ c2) = crc16Add b1 c1 ^^^ crc16Add b2 c2 := by
  have hx : c1 ^^^ c2 ^^^ (b1 ^^^ b2).setWidth 16 = c1 ^^^ b1.setWidth 16 ^^^ (c2 ^^^ b2.setWidth 16) := by
    rw [BitVec.setWidth_xor]
    ac_rfl
  simp only [crc16Add_eq_shift8, hx, crcShift8_xor]

/-- R101: the entry of a byte is its fold into the zero state. -/
theorem crcTableAt_eq_crc16Add (i : Byte) : crcTableAt i = crc16Add 0x00 (i.setWidth 16) := by
  have h0 : i.setWidth 16 ^^^ (0x00 : Byte).setWidth 16 = i.setWidth 16 := BitVec.xor_zero
  rw [crc16Add_eq_shift8, h0, crcShift8_lowByte]

/-! ## A change that commutes with a computation

A computation on the changed state is the image of the computation on the state: from a computation's first part and what
follows it, and from the two branches of a test. -/

/-- The first part reads, and the change does not touch what it reads. -/
theorem bind_eq_map_of_eq {ε α β γ : Type} {f : β → γ} {x x' : Except ε α} {k : α → Except ε β} {k' : α → Except ε γ}
    (hx : x' = x) (hk : ∀ a, k' a = f <$> k a) : (x' >>= k') = f <$> (x >>= k) := by
  rw [hx, map_bind]
  exact bind_congr hk

/-- The first part is changed by `g`, and what follows takes a value changed by `g`. -/
theorem bind_eq_map_of_map {ε α α' β γ : Type} {f : β → γ} {g : α → α'} {x : Except ε α} {x' : Except ε α'}
    {k : α → Except ε β} {k' : α' → Except ε γ} (hx : x' = g <$> x) (hk : ∀ a, k' (g a) = f <$> k a) :
    (x' >>= k') = f <$> (x >>= k) := by
  rw [hx, map_bind, bind_map_left]
  exact bind_congr hk

theorem ite_eq_map {ε β γ : Type} {f : β → γ} {P : Prop} [Decidable P] {x y : Except ε β} {x' y' : Except ε γ}
    (hx : x' = f <$> x) (hy : y' = f <$> y) : (if P then x' else y') = f <$> (if P then x else y) := by
  rw [hx, hy]
  exact (apply_ite (f <$> ·) P x y).symm

/-! ## The state with the other strategy: what it reads and writes -/

/-- A handler's result with the other strategy. -/
def Handled.withStrategy (r : Handled) (st : CrcStrategy) : Handled := { r with state := r.state.withStrategy st }

/-- The handler does the same with either strategy, a fault included (R105). -/
def IgnoresStrategy (h : Handler) : Prop :=
  ∀ n s st, h n (s.withStrategy st) = (·.withStrategy st) <$> h n s

section
variable (s : State) (st : CrcStrategy)

namespace State

theorem rxBytes_withStrategy (a k : Nat) : (s.withStrategy st).rxBytes a k = s.rxBytes a k := by
  induction k generalizing a with
  | zero => rfl
  | succ k ih =>
    rw [rxBytes, rxBytes, ih]
    rfl

theorem txBytes_withStrategy (a k : Nat) : (s.withStrategy st).txBytes a k = s.txBytes a k := by
  induction k generalizing a with
  | zero => rfl
  | succ k ih =>
    rw [txBytes, txBytes, ih]
    rfl

theorem rxStore_withStrategy (a : Nat) (b : Byte) :
    (s.withStrategy st).rxStore a b = (·.withStrategy st) <$> s.rxStore a b :=
  ite_eq_map rfl rfl

theorem txStore_withStrategy (a : Nat) (b : Byte) :
    (s.withStrategy st).txStore a b = (·.withStrategy st) <$> s.txStore a b :=
  ite_eq_map rfl rfl

theorem txStores_withStrategy (a : Nat) (bs : List Byte) :
    (s.withStrategy st).txStores a bs = (·.withStrategy st) <$> s.txStores a bs := by
  induction bs generalizing s a with
  | nil => rfl
  | cons b bs ih => exact bind_eq_map_of_map (s.txStore_withStrategy st a b) fun s1 => ih s1 (a + 1)

theorem echo_withStrategy (a k : Nat) : (s.withStrategy st).echo a k = (·.withStrategy st) <$> s.echo a k :=
  bind_eq_map_of_eq (s.rxBytes_withStrategy st a k) (s.txStores_withStrategy st a)

theorem advance_withStrategy : (s.withStrategy st).advance = s.advance.withStrategy st := by
  unfold advance
  rw [show (s.withStrategy st).rxLen = s.rxLen from rfl, show (s.withStrategy st).cfg.rxCap = s.cfg.rxCap from rfl]
  split
  · rfl
  · rfl

/-- The port presents the same event. -/
theorem fetch_withStrategy {e : PortEvent} {u : State} (h : s.fetch = (e, u)) :
    (s.withStrategy st).fetch = (e, u.withStrategy st) := by
  cases hp : s.pending with
  | nil =>
    simp only [fetch, hp] at h
    cases h
    simp only [fetch, show (s.withStrategy st).pending = [] from hp]
  | cons e' es =>
    cases (fetch_of_pending hp).symm.trans h
    exact fetch_of_pending hp

end State

/-! ## No handler reads the strategy -/

theorem raiseException_withStrategy (e : Byte) :
    raiseException e (s.withStrategy st) = (·.withStrategy st) <$> raiseException e s :=
  bind_eq_map_of_eq rfl fun f =>
    bind_eq_map_of_map (s.txStore_withStrategy st 1 (f ||| 0x80)) fun s1 =>
      bind_eq_map_of_map (s1.txStore_withStrategy st 2 e) fun _ => rfl

theorem raiseUnbound_withStrategy : raiseUnbound (s.withStrategy st) = (·.withStrategy st) <$> raiseUnbound s :=
  raiseException_withStrategy (s.count .invalid) st exIllegalFunction

theorem diagReply_withStrategy (v : Word) :
    diagReply v (s.withStrategy st) = (·.withStrategy st) <$> diagReply v s :=
  bind_eq_map_of_map (s.echo_withStrategy st 2 2) fun s1 =>
    bind_eq_map_of_map (s1.txStores_withStrategy st 4 _) fun _ => rfl

theorem handleDiagEcho_ignoresStrategy : IgnoresStrategy handleDiagEcho :=
  fun _ s st => bind_eq_map_of_map (s.echo_withStrategy st 2 4) fun _ => rfl

theorem readReply_withStrategy (x : Answer) :
    readReply x (s.withStrategy st) = (·.withStrategy st) <$> readReply x s :=
  have hraise := raiseException_withStrategy s st
  ite_eq_map (hraise _) <| ite_eq_map (hraise _) <| ite_eq_map (hraise _) <|
    bind_eq_map_of_map (s.txStore_withStrategy st 2 _) fun s1 =>
      bind_eq_map_of_map (s1.txStores_withStrategy st 3 _) fun _ => rfl

theorem writeReply_withStrategy (x : Answer) :
    writeReply x (s.withStrategy st) = (·.withStrategy st) <$> writeReply x s :=
  ite_eq_map (raiseException_withStrategy s st _) (handleDiagEcho_ignoresStrategy 0 s st)

end

theorem readHandler_ignoresStrategy (k : CbKind) : IgnoresStrategy (readHandler k) := fun _ s st =>
  bind_eq_map_of_eq rfl fun _ => bind_eq_map_of_eq rfl fun _ =>
    ite_eq_map (raiseUnbound_withStrategy s st) (readReply_withStrategy (s.callback _) st _)

theorem writeHandler_ignoresStrategy (k : CbKind) : IgnoresStrategy (writeHandler k) := fun n s st =>
  bind_eq_map_of_eq rfl fun _ => bind_eq_map_of_eq rfl fun _ =>
    ite_eq_map (raiseUnbound_withStrategy s st) <|
      bind_eq_map_of_eq (s.rxBytes_withStrategy st 6 (dataLen n)) fun _ => writeReply_withStrategy (s.callback _) st _

theorem handleDiagUser_ignoresStrategy (subfn : Word) : IgnoresStrategy (handleDiagUser subfn) := fun _ s st =>
  bind_eq_map_of_eq rfl fun _ =>
    ite_eq_map (raiseException_withStrategy (s.callback _) st _) (diagReply_withStrategy (s.callback _) st _)

theorem handleDiagStat_ignoresStrategy (i : StatIx) : IgnoresStrategy (handleDiagStat i) :=
  fun _ s st => diagReply_withStrategy s st (s.statWord i)

theorem handleUnrecognized_ignoresStrategy : IgnoresStrategy handleUnrecognized :=
  fun _ s st => raiseException_withStrategy s st exIllegalFunction

theorem handleDiagUnbound_ignoresStrategy : IgnoresStrategy handleDiagUnbound :=
  fun _ s st => raiseUnbound_withStrategy s st

theorem handleDiag_ignoresStrategy : IgnoresStrategy handleDiag := by
  refine fun n s st => bind_eq_map_of_eq rfl fun subfn => ?_
  rw [show DiagKind.ofSub (s.withStrategy st).cfg subfn = DiagKind.ofSub s.cfg subfn from rfl]
  cases DiagKind.ofSub s.cfg subfn with
  | echo => exact handleDiagEcho_ignoresStrategy n s st
  | stat i => exact handleDiagStat_ignoresStrategy i n s st
  | user => exact handleDiagUser_ignoresStrategy subfn n s st
  | unbound => exact handleDiagUnbound_ignoresStrategy n s st

theorem dispatch_ignoresStrategy : IgnoresStrategy dispatch := by
  refine fun n s st => bind_eq_map_of_eq rfl fun f => ?_
  rw [show (s.withStrategy st).cfg.fc = s.cfg.fc from rfl]
  cases FuncKind.ofCode s.cfg.fc f with
  | rc | ri | rh => exact readHandler_ignoresStrategy _ n s st
  | wsr | wmc | wmr => exact writeHandler_ignoresStrategy _ n s st
  | diag => exact handleDiag_ignoresStrategy n s st
  | other => exact handleUnrecognized_ignoresStrategy n s st

theorem handlerOf_ignoresStrategy (i : Instr) : IgnoresStrategy (handlerOf i) := by
  cases i with
  | nop | ingest _ | process | drain => exact dispatch_ignoresStrategy
  | readCoils | readInputs | readHoldingRegisters => exact readHandler_ignoresStrategy _
  | writeSingleRegister | writeMultipleCoils | writeMultipleRegisters => exact writeHandler_ignoresStrategy _
  | diagEcho => exact handleDiagEcho_ignoresStrategy
  | diagStatSeen | diagStatAddressed | diagStatOk | diagStatErr | diagStatInvalid =>
    exact handleDiagStat_ignoresStrategy _
  | diagUser subfn => exact handleDiagUser_ignoresStrategy subfn
  | diagUnbound _ => exact handleDiagUnbound_ignoresStrategy
  | unrecognized _ => exact handleUnrecognized_ignoresStrategy

/-! ## The commands: both strategies fold the same CRC into a frame and into a response -/

theorem finishUnicast_withStrategy (r : Handled) (st : CrcStrategy) :
    finishUnicast (r.withStrategy st) = (·.withStrategy st) <$> finishUnicast r := by
  refine bind_eq_map_of_eq (r.state.txBytes_withStrategy st 0 r.len) fun body => ?_
  rw [crc16By_eq, crc16By_eq]
  exact bind_eq_map_of_map (r.state.txStores_withStrategy st r.len _) fun _ => rfl

theorem finish_withStrategy (bc : Bool) (r : Handled) (st : CrcStrategy) :
    finish bc (r.withStrategy st) = (·.withStrategy st) <$> finish bc r :=
  ite_eq_map rfl (finishUnicast_withStrategy r st)

section
variable {h : Handler} (hh : IgnoresStrategy h) (n : Nat) (s : State) (st : CrcStrategy)
include hh

theorem respond_withStrategy (bc : Bool) (a f : Byte) :
    respond h n bc a f (s.withStrategy st) = (·.withStrategy st) <$> respond h n bc a f s :=
  bind_eq_map_of_map (s.txStore_withStrategy st 0 a) fun s1 =>
    bind_eq_map_of_map (s1.txStore_withStrategy st 1 f) fun s2 =>
      bind_eq_map_of_map (hh n s2 st) fun r =>
        bind_eq_map_of_map (finish_withStrategy bc r st) fun _ => rfl

theorem resolveAndRespond_withStrategy :
    resolveAndRespond h n (s.withStrategy st) = (·.withStrategy st) <$> resolveAndRespond h n s := by
  refine bind_eq_map_of_eq rfl fun a => bind_eq_map_of_eq rfl fun f => ?_
  rw [show resolveAddress (s.withStrategy st).cfg a f = resolveAddress s.cfg a f from rfl]
  cases resolveAddress s.cfg a f with
  | unicast => exact respond_withStrategy hh n (s.count .addressed) st false a f
  | broadcast => exact respond_withStrategy hh n s st true a f
  | unsupported | mismatch => rfl

theorem processWith_withStrategy :
    processWith h (s.withStrategy st) = (·.withStrategy st) <$> processWith h s :=
  ite_eq_map rfl <| ite_eq_map rfl <| ite_eq_map rfl <|
    resolveAndRespond_withStrategy hh s.rxLen s.consumeFrame.clearResponse st

end

theorem ingest_withStrategy (b : Byte) (s : State) (st : CrcStrategy) :
    ingest b (s.withStrategy st) = (·.withStrategy st) <$> ingest b s := by
  refine bind_eq_map_of_map (s.rxStore_withStrategy st s.rxLen b) fun s1 => ?_
  rw [crcAddBy_eq, crcAddBy_eq]
  exact congrArg Except.ok (State.advance_withStrategy { s1 with crc := crc16Add b s.seed } st)

theorem drain_withStrategy (s : State) (st : CrcStrategy) :
    drain (s.withStrategy st) = (·.withStrategy st) <$> drain s :=
  ite_eq_map rfl <| ite_eq_map rfl <| bind_eq_map_of_eq rfl fun _ => rfl

/-! ## A step that answers a next state -/

theorem outcomeOf_withStrategy {x x' : Except Fault State} {t : State} {st : CrcStrategy}
    (hx : x' = (·.withStrategy st) <$> x) (h : outcomeOf x = .next t) : outcomeOf x' = .next (t.withStrategy st) := by
  rw [outcomeOf_eq_next] at h ⊢
  rw [hx, h]
  rfl

theorem exec_withStrategy {i : Instr} {s t : State} (h : exec i s = .next t) (st : CrcStrategy) :
    exec i (s.withStrategy st) = .next (t.withStrategy st) := by
  by_cases hi : runsProcess i = true
  · rw [exec_of_runsProcess hi] at h ⊢
    exact outcomeOf_withStrategy (processWith_withStrategy (handlerOf_ignoresStrategy i) s st) h
  · cases i with
    | nop => cases h; rfl
    | ingest b => exact outcomeOf_withStrategy (ingest_withStrategy b s st) h
    | drain => exact outcomeOf_withStrategy (drain_withStrategy s st) h
    | _ => exact absurd rfl hi

/-! ## The statements -/

/-- Settles O1: an entry is its byte's fold, and the fold is linear in the high and the low byte of its argument. -/
theorem crcTableFormEqualsBitwise : Obligations.CrcTableFormEqualsBitwise :=
  ⟨by decide +kernel, crcTableAt_eq_crc16Add, crc16AddTable_eq⟩

/-- Settles O2: a state's own two bytes clear it; the worked example is computed. -/
theorem crcResidueIsZero : Obligations.CrcResidueIsZero :=
  ⟨crc16_append_crcBytes, by decide +kernel, by decide +kernel⟩

/-- Settles O3: each shift is linear and loses no bit, and an injection of the finite state set is a bijection. -/
theorem crcAddIsLinearAndBijective : Obligations.CrcAddIsLinearAndBijective :=
  ⟨crc16Add_xor, crc16Add_eq_zero_byte, fun b => Finite.injective_iff_bijective.mp (crc16Add_injective b)⟩

/-- Settles O4: a step is a reset or one instruction, and each commutes with the exchange of the strategy. -/
theorem crcStrategyIsInvisible : Obligations.CrcStrategyIsInvisible := by
  intro s t st h
  cases hwf : s.cfg.wf with
  | false =>
    rw [step_of_not_wf hwf] at h
    cases h
  | true =>
    match hf : s.fetch with
    | (.reset, u) =>
      rw [step_of_fetch_reset hwf hf] at h
      cases h
      exact step_of_fetch_reset (s := s.withStrategy st) hwf (s.fetch_withStrategy st hf)
    | (.command cmd din, u) =>
      rw [step_of_fetch_command hwf hf] at h
      exact (step_of_fetch_command (s := s.withStrategy st) hwf (s.fetch_withStrategy st hf)).trans
        (exec_withStrategy h st)

end Sys2Proof.Machine

/-! The statements of INGEST (R110 to R114): one INGEST, a frame below the capacity, and a stream that fills it. -/

namespace Sys2Proof.Machine

/-- The state after INGESTs of the bytes `bs`, at least one and no more than fit: they stand from `rx_len` on and are
folded in order, and the overflow test that counts is that of the last one (R110 to R112). -/
def State.ingested (s : State) (bs : List Byte) : State :=
  { s with
    rxBuf := s.rxBuf.writes s.rxLen bs
    rxLen := if s.rxLen + bs.length = s.cfg.rxCap then 0 else s.rxLen + bs.length
    crc := bs.foldl (fun c b => crc16Add b c) s.seed
    outputs := ⟨if s.rxLen + bs.length = s.cfg.rxCap then .errRxOverflow else .ok, 0x00⟩ ::
      (List.replicate (bs.length - 1) ⟨.ok, 0x00⟩ ++ s.outputs) }

/-! ## The running CRC's start (R111) -/

theorem State.seed_of_empty {s : State} (h : s.rxLen = 0) : s.seed = crcInit :=
  if_pos h

theorem State.seed_of_partial {s : State} (h : s.rxLen ≠ 0) : s.seed = s.crc :=
  if_neg h

/-! ## One INGEST -/

/-- An INGEST at an offset that exists, in both outcomes of its overflow test. -/
theorem exec_ingest_eq (b : Byte) {s : State} (h : s.rxLen < s.cfg.rxCap) :
    exec (.ingest b) s = .next (s.ingested [b]) := by
  refine outcomeOf_eq_next.mpr (ingest_eq_ok.mpr ⟨h, ?_⟩)
  rw [crcAddBy_eq]
  unfold State.advance
  split
  · next hfull => simp [State.ingested, hfull, State.ret, sentinel]
  · next hroom => simp [State.ingested, hroom, State.ret, sentinel]

theorem State.ingested_one_rxLen (b : Byte) {s : State} (h : s.rxLen + 1 < s.cfg.rxCap) :
    (s.ingested [b]).rxLen = s.rxLen + 1 :=
  if_neg (Nat.ne_of_lt h)

/-- The first byte, which does not fill the buffer, and then the others. -/
theorem State.ingested_ingested (b c : Byte) (bs : List Byte) {s : State} (h : s.rxLen + 1 < s.cfg.rxCap) :
    (s.ingested [b]).ingested (c :: bs) = s.ingested (b :: c :: bs) := by
  have hlen := State.ingested_one_rxLen b h
  have hseed : (s.ingested [b]).seed = crc16Add b s.seed := State.seed_of_partial (by omega)
  have hsum : s.rxLen + 1 + (c :: bs).length = s.rxLen + (b :: c :: bs).length := by
    simp only [List.length_cons]; omega
  have hout : (s.ingested [b]).outputs = ⟨.ok, 0x00⟩ :: s.outputs := by
    simp [State.ingested, Nat.ne_of_lt h]
  rw [State.ingested, hlen, hseed, hsum, hout]
  simp [State.ingested, List.replicate_succ']

/-! ## A sequence of INGESTs -/

theorem ingests_cons_of_next {b : Byte} {s t : State} (bs : List Byte) (h : exec (.ingest b) s = .next t) :
    ingests (b :: bs) s = ingests bs t := by
  rw [ingests, h]

/-- INGESTs of at least one byte and no more than fit. -/
theorem ingests_eq {bs : List Byte} {s : State} (hne : bs ≠ []) (h : s.rxLen + bs.length ≤ s.cfg.rxCap) :
    ingests bs s = .next (s.ingested bs) := by
  induction bs generalizing s with
  | nil => exact absurd rfl hne
  | cons b bs ih =>
    simp only [List.length_cons] at h
    rw [ingests_cons_of_next bs (exec_ingest_eq b (by omega))]
    cases bs with
    | nil => rfl
    | cons c bs =>
      simp only [List.length_cons] at h
      have hroom : s.rxLen + 1 < s.cfg.rxCap := by omega
      have hfits : (s.ingested [b]).rxLen + (c :: bs).length ≤ s.cfg.rxCap := by
        rw [State.ingested_one_rxLen b hroom, List.length_cons]; omega
      rw [ih (List.cons_ne_nil c bs) hfits, State.ingested_ingested b c bs hroom]

/-! ## From an empty accumulator -/

/-- A frame that leaves room: every INGEST returned `OK`. -/
theorem State.ingested_of_room {bs : List Byte} {s : State} (h0 : s.rxLen = 0) (hne : bs ≠ [])
    (h : bs.length < s.cfg.rxCap) :
    s.ingested bs = { s with
      rxBuf := s.rxBuf.writes 0 bs
      rxLen := bs.length
      crc := crc16 bs
      outputs := List.replicate bs.length ⟨.ok, 0x00⟩ ++ s.outputs } := by
  have hroom : bs.length ≠ s.cfg.rxCap := by omega
  have hout : List.replicate bs.length (⟨.ok, 0x00⟩ : Output) =
      ⟨.ok, 0x00⟩ :: List.replicate (bs.length - 1) ⟨.ok, 0x00⟩ := by
    rw [← List.replicate_succ, Nat.sub_add_cancel (List.length_pos_of_ne_nil hne)]
  rw [State.ingested, State.seed_of_empty h0, h0, Nat.zero_add, if_neg hroom, if_neg hroom, hout]
  rfl

/-- A stream that fills the buffer: the last INGEST alone overflowed. -/
theorem State.ingested_of_full {bs : List Byte} {s : State} (h0 : s.rxLen = 0) (h : bs.length = s.cfg.rxCap) :
    s.ingested bs = { s with
      rxBuf := s.rxBuf.writes 0 bs
      rxLen := 0
      crc := crc16 bs
      outputs := ⟨.errRxOverflow, 0x00⟩ :: (List.replicate (bs.length - 1) ⟨.ok, 0x00⟩ ++ s.outputs) } := by
  rw [State.ingested, State.seed_of_empty h0, h0, Nat.zero_add, if_pos h, if_pos h]
  rfl

/-! ## The statements -/

/-- Settles O12: the bytes are written from offset 0 on, so they are read back and the offsets above them are kept. -/
theorem ingestsAccumulateTheFrame : Obligations.IngestsAccumulateTheFrame := by
  intro bs s h0 hne hcap
  refine ⟨_, ingests_eq hne (by omega), ?_⟩
  rw [State.ingested_of_room h0 hne hcap]
  exact ⟨rfl, Memory.readRange_writes s.rxBuf 0 bs,
    fun k hk => Memory.read_writes_other s.rxBuf 0 bs k (Or.inr (by omega))⟩

/-- Settles O13: the fill length reaches `RX_CAP` with the last byte and not before. -/
theorem ingestsOverflowAtCapacity : Obligations.IngestsOverflowAtCapacity := by
  intro bs s h0 hcap hlen
  have hne : bs ≠ [] := List.ne_nil_of_length_pos (by omega)
  refine ⟨_, ingests_eq hne (by omega), ?_⟩
  rw [State.ingested_of_full h0 hlen]

/-- Settles O11: the code `01` is read as INGEST, and one INGEST is a sequence of one byte. -/
theorem ingestStoresFoldsAndCounts : Obligations.IngestStoresFoldsAndCounts :=
  ⟨fun _ _ => rfl, fun b _ h => exec_ingest_eq b h⟩

end Sys2Proof.Machine

/-! The statements of PROCESS as a whole: what it consumes and counts whatever its result, its short ends, and the row
that the dispatch selects (R120, R121, R127, R130, R132). -/

namespace Sys2Proof.Machine

/-! ## A PROCESS row by its end -/

/-- A PROCESS row answers every end its handler allows. -/
theorem exec_of_processEnd {i : Instr} {s t : State} (hi : runsProcess i = true) (e : ProcessEnd (handlerOf i) s t) :
    exec i s = .next t :=
  (exec_of_runsProcess hi s).trans (outcomeOf_eq_next.mpr e.run)

theorem exec_process_rxLen {i : Instr} {s t : State} (hi : runsProcess i = true) (h : exec i s = .next t) :
    t.rxLen = 0 := by
  obtain ⟨r, hp⟩ := (exec_process_end hi h).processed (sound_handlerOf i)
  exact hp.rxLen

/-! ## The counter of commands (R130) -/

theorem ProcessEnd.seen {h : Handler} {s t : State} (hs : HandlerSound h) (e : ProcessEnd h s t) :
    t.stats.get .seen =
      if s.cfg.ctxBound = true ∧ s.cfg.statsEn = true then (s.stats.get .seen + 1) % 2 ^ s.cfg.statW
      else s.stats.get .seen := by
  obtain ⟨l, hl, hseen, ht⟩ := e.stats_counted hs
  simp only [ht, s.get_counted hl, hseen, and_comm]

/-! ## A PROCESS depends on its handler through the frame alone -/

/-- The two handlers do the same for a frame of `n` bytes in every state with the parameters `c` and the receive buffer
`m`. -/
def AgreeOnFrame (h h' : Handler) (n : Nat) (c : Config) (m : Memory) : Prop :=
  ∀ u : State, u.cfg = c → u.rxBuf = m → h n u = h' n u

/-- What follows a computation matters only for the value it yields. -/
theorem bind_congr_of_ok {ε α β : Type} {x : Except ε α} {k k' : α → Except ε β} (hk : ∀ a, x = .ok a → k a = k' a) :
    (x >>= k) = (x >>= k') := by
  cases x with
  | error e => rfl
  | ok a => exact hk a rfl

theorem State.txStore_keeps {s t : State} {a : Nat} {b : Byte} (h : s.txStore a b = .ok t) :
    t.cfg = s.cfg ∧ t.rxBuf = s.rxBuf := by
  obtain ⟨-, rfl⟩ := State.txStore_eq_ok.mp h
  exact ⟨rfl, rfl⟩

section
variable {h h' : Handler} {n : Nat} {s : State}

theorem respond_congr (hh : AgreeOnFrame h h' n s.cfg s.rxBuf) (bc : Bool) (a f : Byte) :
    respond h n bc a f s = respond h' n bc a f s := by
  refine bind_congr_of_ok fun s1 h1 => bind_congr_of_ok fun s2 h2 => ?_
  obtain ⟨hcfg1, hrx1⟩ := State.txStore_keeps h1
  obtain ⟨hcfg2, hrx2⟩ := State.txStore_keeps h2
  rw [hh s2 (hcfg2.trans hcfg1) (hrx2.trans hrx1)]

theorem resolveAndRespond_congr (hh : AgreeOnFrame h h' n s.cfg s.rxBuf) :
    resolveAndRespond h n s = resolveAndRespond h' n s := by
  refine bind_congr fun a => bind_congr fun f => ?_
  cases resolveAddress s.cfg a f with
  | unicast => exact respond_congr (s := s.count .addressed) hh false a f
  | broadcast => exact respond_congr hh true a f
  | unsupported | mismatch => rfl

/-- The guard, the length test and the CRC test (R121, R123, R124) do not involve the handler. -/
theorem processWith_congr (hh : AgreeOnFrame h h' s.rxLen s.cfg s.rxBuf) : processWith h s = processWith h' s :=
  ite_congr rfl (fun _ => rfl) fun _ => ite_congr rfl (fun _ => rfl) fun _ => ite_congr rfl (fun _ => rfl) fun _ =>
    resolveAndRespond_congr (s := s.consumeFrame.clearResponse) hh

end

/-- On an accepted frame the dispatch is the decoded row's handler (R127, R149). -/
theorem dispatch_agrees_handlerOf {s : State} {a f b2 b3 b4 b5 : Byte} (hI : s.Inv)
    (hreq : s.HasRequest a f b2 b3 b4 b5) :
    AgreeOnFrame dispatch (handlerOf (decodeFunction s.cfg f (beWord b2 b3))) s.rxLen s.cfg s.rxBuf := by
  intro u hcfg hrx
  obtain ⟨data, hdata⟩ := region_of_request hI hreq
  have hready : Ready u s.rxLen a f b2 b3 b4 b5 data :=
    (ready_handlerStart (bc := false) hI hreq hdata).mono hrx hcfg
  rw [← hcfg]
  exact dispatch_eq_handlerOf (hready.byte 1 (by omega)) (fun _ => hready.readsF) s.rxLen

/-! ## The statements -/

/-- Settles O22: the function byte and the sub-function stand in the frame, so every handler run of the dispatch is one
of the decoded row. -/
theorem processRunsTheDecodedFunction : Obligations.ProcessRunsTheDecodedFunction := by
  intro s a f b2 b3 b4 b5 i hI hreq hdecode
  obtain rfl : decodeFunction s.cfg f (beWord b2 b3) = i := Except.ok.inj hdecode
  rw [exec_of_runsProcess (decodeFunction_is_function s.cfg f (beWord b2 b3)).1 s,
    ← processWith_congr (dispatch_agrees_handlerOf hI hreq)]
  rfl

/-- Settles O23: each of the ends of a PROCESS leaves the frame consumed. -/
theorem processConsumesTheFrame : Obligations.ProcessConsumesTheFrame :=
  fun _ _ _ => exec_process_rxLen

/-- Settles O24: the first PROCESS consumed the frame, so the second takes the short end. -/
theorem repeatedProcessIsTooShort : Obligations.RepeatedProcessIsTooShort := by
  intro s t h hctx
  have hlen : t.rxLen = 0 := exec_process_rxLen rfl h
  exact exec_of_processEnd rfl (.short hctx (by omega) rfl)

/-- Settles O42: NOP, INGEST and DRAIN count nothing, and a PROCESS counts itself past the guard. -/
theorem seenCountsEveryProcess : Obligations.SeenCountsEveryProcess := by
  intro i s t h
  cases exec_end h with
  | nop | ended | drained => rfl
  | ingest b _ hlen => simp [runsProcess]
  | process _ _ _ hi he => simpa [hi] using he.seen (sound_handlerOf i)

/-- Settles O17: the null guard is the first of the ends of a PROCESS. -/
theorem nullContextReturnsErrNull : Obligations.NullContextReturnsErrNull :=
  fun _ _ hi hctx => exec_of_processEnd hi (.null hctx rfl)

end Sys2Proof.Machine

/-! The function rows on an accepted frame (R141 to R156, R170, R172 to R177): the unicast answers, the broadcast write, and
the one callback request a command may issue. -/

namespace Sys2Proof.Machine

/-! ## The handlers of the rows -/

theorem handlerOf_readRow {p : Instr × CbKind} (hp : p ∈ readRows) :
    runsProcess p.1 = true ∧ handlerOf p.1 = readHandler p.2 := by
  simp only [readRows, List.mem_cons, List.not_mem_nil, or_false] at hp
  rcases hp with rfl | rfl | rfl <;> exact ⟨rfl, rfl⟩

theorem handlerOf_writeRow {p : Instr × CbKind} (hp : p ∈ writeRows) :
    runsProcess p.1 = true ∧ handlerOf p.1 = writeHandler p.2 := by
  simp only [writeRows, List.mem_cons, List.not_mem_nil, or_false] at hp
  rcases hp with rfl | rfl | rfl <;> exact ⟨rfl, rfl⟩

theorem handlerOf_statRow {p : Instr × StatIx} (hp : p ∈ statRows) :
    runsProcess p.1 = true ∧ handlerOf p.1 = handleDiagStat p.2 := by
  simp only [statRows, List.mem_cons, List.not_mem_nil, or_false] at hp
  rcases hp with rfl | rfl | rfl | rfl | rfl <;> exact ⟨rfl, rfl⟩

/-! ## What each handler does on a ready state, its callback's answer included -/

section
variable {u : State} {n : Nat} {a f b2 b3 b4 b5 : Byte} {data : List Byte}

theorem Ready.callback (h : Ready u n a f b2 b3 b4 b5 data) (q : CbRequest) :
    Ready (u.callback q) n a f b2 b3 b4 b5 data :=
  h.mono rfl rfl

/-- The three reasons for an exception, in the order of R141. -/
theorem readReply_raises (h : Ready u n a f b2 b3 b4 b5 data) {x : Answer} {e : Byte}
    (hcase : (x.ex ≠ 0x00 ∧ e = x.ex) ∨ (x.ex = 0x00 ∧ x.isNull = true ∧ e = 0x04) ∨
      (x.ex = 0x00 ∧ x.isNull = false ∧ u.cfg.txCap < 3 + x.data.length + 2 ∧ e = 0x02)) :
    readReply x u = .ok (raised u f e) := by
  rcases hcase with ⟨hex, rfl⟩ | ⟨hex, hnull, rfl⟩ | ⟨hex, hnull, hlong, rfl⟩
  · exact readReply_exception h hex
  · exact readReply_null h hex hnull
  · exact readReply_tooLong h hex hnull hlong

theorem writeHandler_echo (h : Ready u n a f b2 b3 b4 b5 data) {k : CbKind} (hb : u.cfg.cbBound.bound k = true)
    (hex : u.nextAnswer.ex = 0x00) :
    writeHandler k n u = .ok (replied (u.callback ⟨k, beWord b2 b3, beWord b4 b5, data⟩) [b2, b3, b4, b5]) :=
  (writeHandler_bound h hb).trans (writeReply_echo (h.callback _) hex)

theorem writeHandler_exception (h : Ready u n a f b2 b3 b4 b5 data) {k : CbKind} (hb : u.cfg.cbBound.bound k = true)
    (hex : u.nextAnswer.ex ≠ 0x00) :
    writeHandler k n u =
      .ok (raised (u.callback ⟨k, beWord b2 b3, beWord b4 b5, data⟩) f u.nextAnswer.ex) :=
  (writeHandler_bound h hb).trans (writeReply_exception (h.callback _) hex)

theorem handleDiagStat_ok (h : Ready u n a f b2 b3 b4 b5 data) (i : StatIx) :
    handleDiagStat i n u = .ok (replied u [b2, b3, hiByte (u.statWord i), loByte (u.statWord i)]) :=
  diagReply_ok h _

end

/-! ## A row's unicast answer, from what its handler returned -/

theorem ready_of_request {s : State} {a f b2 b3 b4 b5 : Byte} (bc : Bool) (hI : s.Inv)
    (hreq : s.HasRequest a f b2 b3 b4 b5) :
    ∃ data, Ready (handlerStart s bc a f) s.rxLen a f b2 b3 b4 b5 data := by
  obtain ⟨data, hdata⟩ := region_of_request hI hreq
  exact ⟨data, ready_handlerStart hI hreq hdata⟩

section
variable {i : Instr} {s v : State} {f b2 b3 b4 b5 : Byte} (hi : runsProcess i = true) (hI : s.Inv)
  (hreq : s.HasRequest s.cfg.address f b2 b3 b4 b5)
include hi hI hreq

/-- The exception `e`, raised in a state `v` whose `tx_buf` holds the header, is answered as an error frame; the callback
port is as in `v` (R170, R172). -/
theorem exec_answers_raised {e : Byte} (hv : v.txBuf = s.txBuf.writes 0 [s.cfg.address, f])
    (hh : handlerOf i s.rxLen (handlerStart s false s.cfg.address f) = .ok (raised v f e)) :
    ∃ t, exec i s = .next t ∧ s.Answered t [s.cfg.address, f ||| 0x80, e] .answeredError ∧
      t.stats = (v.stats.count s.cfg .err).count s.cfg .seen ∧ t.requests = v.requests ∧ t.answers = v.answers := by
  have hbody : (raised v f e).state.txBuf.readRange 0 3 = some [s.cfg.address, f ||| 0x80, e] := by
    rw [raised, hv]
    exact readRange_header_error s.txBuf s.cfg.address f [f ||| 0x80, e]
  obtain ⟨t, hrun, ht⟩ := processWith_answers (sound_handlerOf i) hI hreq hh hbody
  exact ⟨t, (exec_of_runsProcess hi s).trans (outcomeOf_eq_next.mpr hrun), ht⟩

/-- The bytes `bs`, written behind the header in a state `v`, are answered behind the request's function byte; the callback
port is as in `v` (R172, R177). -/
theorem exec_answers_replied {bs : List Byte} (hv : v.txBuf = s.txBuf.writes 0 [s.cfg.address, f])
    (hh : handlerOf i s.rxLen (handlerStart s false s.cfg.address f) = .ok (replied v bs)) :
    ∃ t, exec i s = .next t ∧ s.Answered t ([s.cfg.address, f] ++ bs) .ok ∧
      t.stats = (v.stats.count s.cfg .ok).count s.cfg .seen ∧ t.requests = v.requests ∧ t.answers = v.answers := by
  have hbody : (replied v bs).state.txBuf.readRange 0 (2 + bs.length) = some ([s.cfg.address, f] ++ bs) := by
    rw [replied, hv]
    exact readRange_header_reply s.txBuf s.cfg.address f bs
  obtain ⟨t, hrun, ht⟩ := processWith_answers (sound_handlerOf i) hI hreq hh hbody
  exact ⟨t, (exec_of_runsProcess hi s).trans (outcomeOf_eq_next.mpr hrun), ht⟩

/-- An exception raised after the one request `q` (R156, R170). -/
theorem exec_asks_and_raises {e : Byte} {q : CbRequest}
    (hh : handlerOf i s.rxLen (handlerStart s false s.cfg.address f) =
      .ok (raised ((handlerStart s false s.cfg.address f).callback q) f e)) :
    ∃ t, exec i s = .next t ∧ s.Answered t [s.cfg.address, f ||| 0x80, e] .answeredError ∧
      t.stats = s.counted [.addressed, .err, .seen] ∧ s.Asked t q := by
  obtain ⟨t, hrun, hans, hstats, hrequests, hanswers⟩ := exec_answers_raised hi hI hreq rfl hh
  exact ⟨t, hrun, hans, hstats, hrequests, hanswers⟩

/-- A reply after the one request `q` (R156, R177). -/
theorem exec_asks_and_replies {bs : List Byte} {q : CbRequest}
    (hh : handlerOf i s.rxLen (handlerStart s false s.cfg.address f) =
      .ok (replied ((handlerStart s false s.cfg.address f).callback q) bs)) :
    ∃ t, exec i s = .next t ∧ s.Answered t ([s.cfg.address, f] ++ bs) .ok ∧
      t.stats = s.counted [.addressed, .ok, .seen] ∧ s.Asked t q := by
  obtain ⟨t, hrun, hans, hstats, hrequests, hanswers⟩ := exec_answers_replied hi hI hreq rfl hh
  exact ⟨t, hrun, hans, hstats, hrequests, hanswers⟩

end

/-! ## A row's broadcast, from what its handler returned -/

theorem resolveAddress_broadcast {c : Config} (h : c.address ≠ 0x00) : resolveAddress c 0x00 c.fc.wmr = .broadcast := by
  rw [resolveAddress, if_neg h.symm, if_pos ⟨rfl, rfl⟩]

/-- A broadcast frame sends nothing and counts no outcome; the callback port is as its handler left it (R173, R174). -/
theorem exec_suppresses {i : Instr} {s : State} {a f b2 b3 b4 b5 : Byte} {r : Handled} {L : Nat}
    (hi : runsProcess i = true) (hI : s.Inv) (hreq : s.HasRequest a f b2 b3 b4 b5)
    (hres : resolveAddress s.cfg a f = .broadcast) (hh : handlerOf i s.rxLen (handlerStart s true a f) = .ok r)
    (hlen : r.len ≤ L) :
    ∃ t, exec i s = .next t ∧ s.Suppressed t r.outcome L ∧ t.stats = r.state.stats.count s.cfg .seen ∧
      t.requests = r.state.requests ∧ t.answers = r.state.answers := by
  obtain ⟨data, hready⟩ := ready_of_request true hI hreq
  have he := sound_handlerOf i _ _ _ hh
  have hcfg : r.state.cfg = s.cfg := he.frame.1
  have htx : 1 < s.cfg.txCap := by
    have htx8 : 8 ≤ s.cfg.txCap := hready.tx
    omega
  have hend : ProcessEnd (handlerOf i) s _ := .broadcast hreq.ctx hreq.len hreq.residue a f (hready.byte 0 (by omega))
    (hready.byte 1 (by omega)) hres htx r hh rfl
  refine ⟨_, exec_of_processEnd hi hend, ⟨he.processed _ _ _ _ _, rfl, rfl, ?_⟩, ?_, rfl, rfl⟩
  · exact fun k hk => he.body.2 k (hlen.trans hk)
  · simp only [State.ret_stats, State.count_stats, hcfg]

/-! ## A handler asks bound kinds alone (R156) -/

/-- With the parameters `c`, the handler issues no request, or one of a kind that `c` binds. -/
def AsksBound (c : Config) (h : Handler) : Prop :=
  ∀ n u r, u.cfg = c → h n u = .ok r →
    r.state.requests = u.requests ∨ ∃ q, r.state.requests = q :: u.requests ∧ c.cbBound.bound q.kind = true

theorem AsksBound.bound {c : Config} {h : Handler} (hb : AsksBound c h) {n : Nat} {u : State} {r : Handled}
    {q : CbRequest} (hu : u.cfg = c) (hr : h n u = .ok r) (hq : r.state.requests = q :: u.requests) :
    c.cbBound.bound q.kind = true := by
  rcases hb n u r hu hr with hnone | ⟨q', hq', hbound⟩
  · exact absurd (hnone.symm.trans hq) (List.cons_ne_self _ _).symm
  · obtain rfl : q' = q := (List.cons.inj (hq'.symm.trans hq)).1
    exact hbound

/-- A handler without a callback. -/
theorem asksBound_of_requests (c : Config) {h : Handler}
    (hnone : ∀ n u r, h n u = .ok r → r.state.requests = u.requests) : AsksBound c h :=
  fun n u r _ hr => Or.inl (hnone n u r hr)

theorem readHandler_asksBound (c : Config) (k : CbKind) : AsksBound c (readHandler k) := by
  intro n u r hu h
  obtain ⟨start, -, h⟩ := bind_eq_ok.mp h
  obtain ⟨count, -, h⟩ := bind_eq_ok.mp h
  split at h
  · exact Or.inl (raiseUnbound_requests h)
  · next hb => exact Or.inr ⟨_, readReply_requests h, by simpa [hu] using hb⟩

theorem writeHandler_asksBound (c : Config) (k : CbKind) : AsksBound c (writeHandler k) := by
  intro n u r hu h
  obtain ⟨start, -, h⟩ := bind_eq_ok.mp h
  obtain ⟨count, -, h⟩ := bind_eq_ok.mp h
  split at h
  · exact Or.inl (raiseUnbound_requests h)
  · next hb =>
    obtain ⟨data, -, h⟩ := bind_eq_ok.mp h
    exact Or.inr ⟨_, writeReply_requests h, by simpa [hu] using hb⟩

/-- `DIAG_USER` itself tests no binding: the dispatch does (R149). -/
theorem handleDiagUser_asksBound {c : Config} (hdiag : c.cbBound.diag = true) (subfn : Word) :
    AsksBound c (handleDiagUser subfn) := by
  intro n u r _ h
  obtain ⟨data, -, h⟩ := bind_eq_ok.mp h
  exact Or.inr ⟨_, diagUserReply_requests (x := u.nextAnswer) h, hdiag⟩

theorem handleDiagEcho_asksBound (c : Config) : AsksBound c handleDiagEcho :=
  asksBound_of_requests c fun _ _ _ => handleDiagEcho_requests

theorem handleDiagStat_asksBound (c : Config) (i : StatIx) : AsksBound c (handleDiagStat i) :=
  asksBound_of_requests c fun _ _ _ => diagReply_requests

theorem handleDiagUnbound_asksBound (c : Config) : AsksBound c handleDiagUnbound :=
  asksBound_of_requests c fun _ _ _ => raiseUnbound_requests

theorem handleUnrecognized_asksBound (c : Config) : AsksBound c handleUnrecognized :=
  asksBound_of_requests c fun _ _ _ => raiseException_requests

theorem diag_bound_of_ofSub_user {c : Config} {subfn : Word} (h : DiagKind.ofSub c subfn = .user) :
    c.cbBound.diag = true := by
  unfold DiagKind.ofSub at h
  split at h
  · cases h
  · split at h
    · cases h
    · split at h
      · next hdiag => exact hdiag
      · cases h

theorem handleDiag_asksBound (c : Config) : AsksBound c handleDiag := by
  intro n u r hu h
  obtain ⟨subfn, -, h⟩ := bind_eq_ok.mp h
  split at h
  · exact handleDiagEcho_asksBound c n u r hu h
  · exact handleDiagStat_asksBound c _ n u r hu h
  · next huser => exact handleDiagUser_asksBound (hu ▸ diag_bound_of_ofSub_user huser) subfn n u r hu h
  · exact handleDiagUnbound_asksBound c n u r hu h

theorem dispatch_asksBound (c : Config) : AsksBound c dispatch := by
  intro n u r hu h
  obtain ⟨f, -, h⟩ := bind_eq_ok.mp h
  cases hk : FuncKind.ofCode u.cfg.fc f <;> rw [hk] at h
  case rc | ri | rh => exact readHandler_asksBound c _ n u r hu h
  case wsr | wmc | wmr => exact writeHandler_asksBound c _ n u r hu h
  case diag => exact handleDiag_asksBound c n u r hu h
  case other => exact handleUnrecognized_asksBound c n u r hu h

/-- The handler of a well-formed row: `DIAG_USER` is one only where the diagnostic callback is bound. -/
theorem handlerOf_asksBound {c : Config} {i : Instr} (hwf : i.wf c = true) : AsksBound c (handlerOf i) := by
  cases i with
  | nop | ingest _ | process | drain => exact dispatch_asksBound c
  | readCoils | readInputs | readHoldingRegisters => exact readHandler_asksBound c _
  | writeSingleRegister | writeMultipleCoils | writeMultipleRegisters => exact writeHandler_asksBound c _
  | diagEcho => exact handleDiagEcho_asksBound c
  | diagStatSeen | diagStatAddressed | diagStatOk | diagStatErr | diagStatInvalid => exact handleDiagStat_asksBound c _
  | diagUser subfn => exact handleDiagUser_asksBound (Bool.and_eq_true_iff.mp hwf).2 subfn
  | diagUnbound _ => exact handleDiagUnbound_asksBound c
  | unrecognized _ => exact handleUnrecognized_asksBound c

/-- A PROCESS uses the callback port at most once: only its handler does (R156). -/
theorem ProcessEnd.notAsked_or_asked {h : Handler} {s t : State} (hs : HandlerSound h) (e : ProcessEnd h s t) :
    s.NotAsked t ∨ ∃ q, s.Asked t q := by
  cases e with
  | null hc ht => exact Or.inl (ht ▸ ⟨rfl, rfl⟩)
  | short hc hn ht => exact Or.inl (ht ▸ ⟨rfl, rfl⟩)
  | crc hc hn hr ht => exact Or.inl (ht ▸ ⟨rfl, rfl⟩)
  | unsupported hc hn hr a f ha hf hres ht => exact Or.inl (ht ▸ ⟨rfl, rfl⟩)
  | mismatch hc hn hr a f ha hf hres ht => exact Or.inl (ht ▸ ⟨rfl, rfl⟩)
  | unicast hc hn hr a f ha hf hres hcap r u hh hu ht =>
    obtain ⟨body, -, -, rfl⟩ := finishUnicast_eq_ok.mp hu
    subst ht
    rcases (hs _ _ _ hh).asked with ⟨hq, ha⟩ | ⟨-, q, hq, ha⟩
    · exact Or.inl ⟨hq, ha⟩
    · exact Or.inr ⟨q, hq, ha⟩
  | broadcast hc hn hr a f ha hf hres hcap r hh ht =>
    subst ht
    rcases (hs _ _ _ hh).asked with ⟨hq, ha⟩ | ⟨-, q, hq, ha⟩
    · exact Or.inl ⟨hq, ha⟩
    · exact Or.inr ⟨q, hq, ha⟩

/-! ## The statements -/

/-- Settles O26: the bound callback's data are the reply. -/
theorem readAnswersTheData : Obligations.ReadAnswersTheData := by
  intro p hp s f b2 b3 b4 b5 hI hreq hbound hex hnull hfit
  obtain ⟨hi, hrow⟩ := handlerOf_readRow hp
  obtain ⟨_, hready⟩ := ready_of_request false hI hreq
  exact exec_asks_and_replies hi hI hreq
    (hrow ▸ (readHandler_bound hready hbound).trans (readReply_data hex hnull hfit))

/-- Settles O27: each of the three cases, in the order of R141, raises its exception. -/
theorem readAnswersTheException : Obligations.ReadAnswersTheException := by
  intro p hp s f b2 b3 b4 b5 e hI hreq hbound hcase
  obtain ⟨hi, hrow⟩ := handlerOf_readRow hp
  obtain ⟨_, hready⟩ := ready_of_request false hI hreq
  exact exec_asks_and_raises hi hI hreq
    (hrow ▸ (readHandler_bound hready hbound).trans (readReply_raises (hready.callback _) hcase))

/-- Settles O28: the bound callback is asked with the data region, and bytes 2 to 5 are the reply. -/
theorem writeEchoesTheRequest : Obligations.WriteEchoesTheRequest := by
  intro p hp s f b2 b3 b4 b5 data hI hreq hdata hbound hex
  obtain ⟨hi, hrow⟩ := handlerOf_writeRow hp
  have hready := ready_handlerStart (bc := false) hI hreq hdata
  exact exec_asks_and_replies hi hI hreq (hrow ▸ writeHandler_echo hready hbound hex)

/-- Settles O29: the request is the one of a success; its answer's exception is raised. -/
theorem writeAnswersTheException : Obligations.WriteAnswersTheException := by
  intro p hp s f b2 b3 b4 b5 data hI hreq hdata hbound hex
  obtain ⟨hi, hrow⟩ := handlerOf_writeRow hp
  have hready := ready_handlerStart (bc := false) hI hreq hdata
  exact exec_asks_and_raises hi hI hreq (hrow ▸ writeHandler_exception hready hbound hex)

/-- Settles O30: each of these rows raises "illegal function" after counting an invalid frame. -/
theorem unboundIsIllegalFunction : Obligations.UnboundIsIllegalFunction := by
  intro s f b2 b3 b4 b5 i hI hreq hrow
  obtain ⟨_, hready⟩ := ready_of_request false hI hreq
  have hraise : runsProcess i = true ∧ handlerOf i s.rxLen (handlerStart s false s.cfg.address f) =
      .ok (raised ((handlerStart s false s.cfg.address f).count .invalid) f 0x01) := by
    rcases hrow with ⟨p, hp, rfl, hbound⟩ | ⟨subfn, rfl⟩
    · rcases List.mem_append.mp hp with hp | hp
      · obtain ⟨hi, hrow⟩ := handlerOf_readRow hp
        exact ⟨hi, hrow ▸ readHandler_unbound hready hbound⟩
      · obtain ⟨hi, hrow⟩ := handlerOf_writeRow hp
        exact ⟨hi, hrow ▸ writeHandler_unbound hready hbound⟩
    · exact ⟨rfl, handleDiagUnbound_ok hready⟩
  obtain ⟨t, hrun, hans, hstats, hrequests, hanswers⟩ := exec_answers_raised hraise.1 hI hreq rfl hraise.2
  exact ⟨t, hrun, hans, hstats, hrequests, hanswers⟩

/-- Settles O31: the exception is raised in the state the handler starts from. -/
theorem unrecognizedIsIllegalFunction : Obligations.UnrecognizedIsIllegalFunction := by
  intro s f b2 b3 b4 b5 hI hreq
  obtain ⟨_, hready⟩ := ready_of_request false hI hreq
  obtain ⟨t, hrun, hans, hstats, hrequests, hanswers⟩ :=
    exec_answers_raised (i := .unrecognized f) rfl hI hreq rfl (handleUnrecognized_ok hready)
  exact ⟨t, hrun, hans, hstats, hrequests, hanswers⟩

/-- Settles O32: bytes 2 to 5 are the reply. -/
theorem diagEchoEchoes : Obligations.DiagEchoEchoes := by
  intro s f b2 b3 b4 b5 hI hreq
  obtain ⟨_, hready⟩ := ready_of_request false hI hreq
  obtain ⟨t, hrun, hans, hstats, hrequests, hanswers⟩ :=
    exec_answers_replied (i := .diagEcho) rfl hI hreq rfl (handleDiagEcho_ok hready)
  exact ⟨t, hrun, hans, hstats, hrequests, hanswers⟩

/-- Settles O33: the handler reads the counter in the state it starts from, where only `stat_addressed` has been counted. -/
theorem diagStatReadsTheCounter : Obligations.DiagStatReadsTheCounter := by
  intro p hp s f b2 b3 b4 b5 hI hreq
  obtain ⟨hi, hrow⟩ := handlerOf_statRow hp
  obtain ⟨_, hready⟩ := ready_of_request false hI hreq
  obtain ⟨t, hrun, hans, hstats, hrequests, hanswers⟩ := exec_answers_replied hi hI hreq rfl
    (hrow ▸ handleDiagStat_ok hready p.2)
  exact ⟨t, _, hrun, rfl, hans, hstats, hrequests, hanswers⟩

/-- Settles O34: the answered value follows the echoed sub-function. -/
theorem diagUserAnswersTheValue : Obligations.DiagUserAnswersTheValue := by
  intro s f b2 b3 b4 b5 hI hreq hex
  obtain ⟨_, hready⟩ := ready_of_request false hI hreq
  exact exec_asks_and_replies rfl hI hreq (handleDiagUser_value hready (beWord b2 b3) hex)

/-- Settles O35: the exception is raised after the one request. -/
theorem diagUserAnswersTheException : Obligations.DiagUserAnswersTheException := by
  intro s f b2 b3 b4 b5 hI hreq hex
  obtain ⟨_, hready⟩ := ready_of_request false hI hreq
  exact exec_asks_and_raises rfl hI hreq (handleDiagUser_exception hready (beWord b2 b3) hex)

/-- Settles O36: the handler is the one of a unicast write, and `Finish` discards what it wrote. -/
theorem broadcastWriteSendsNothing : Obligations.BroadcastWriteSendsNothing := by
  intro s b2 b3 b4 b5 data hI hreq haddr hdata
  have hready := ready_handlerStart (bc := true) hI hreq hdata
  have hsuppress := fun r hh => exec_suppresses (i := .writeMultipleRegisters) (r := r) (L := 6) rfl hI hreq
    (resolveAddress_broadcast haddr) hh
  refine ⟨fun hbound => ?_, fun hbound => ?_⟩
  · by_cases hex : s.nextAnswer.ex = 0x00
    · obtain ⟨t, hrun, hsup, hstats, hrequests, hanswers⟩ :=
        hsuppress _ (writeHandler_echo hready hbound hex) (show 6 ≤ 6 by omega)
      rw [if_pos hex]
      exact ⟨t, hrun, hsup, hstats, hrequests, hanswers⟩
    · obtain ⟨t, hrun, hsup, hstats, hrequests, hanswers⟩ :=
        hsuppress _ (writeHandler_exception hready hbound hex) (show 3 ≤ 6 by omega)
      rw [if_neg hex]
      exact ⟨t, hrun, hsup, hstats, hrequests, hanswers⟩
  · obtain ⟨t, hrun, hsup, hstats, hrequests, hanswers⟩ :=
      hsuppress _ (writeHandler_unbound hready hbound) (show 3 ≤ 6 by omega)
    exact ⟨t, hrun, hsup, hstats, hrequests, hanswers⟩

/-- Settles O39: only a PROCESS uses the callback port, at most once, and its handler asks bound kinds alone. -/
theorem atMostOneCallback : Obligations.AtMostOneCallback := by
  intro i s t hwf h
  cases hi : runsProcess i with
  | false =>
    obtain ⟨-, -, -, hnot, -⟩ := onlyProcessWritesTheResponse i s t hi h
    exact Or.inl hnot
  | true =>
    have hend := exec_process_end hi h
    refine (hend.notAsked_or_asked (sound_handlerOf i)).imp_right ?_
    rintro ⟨q, hq⟩
    obtain ⟨bc, a, f, r, hh, hr, -⟩ := hend.asked hq.requests
    exact ⟨rfl, q, hq, (handlerOf_asksBound hwf).bound (u := handlerStart s bc a f) rfl hh hr⟩

end Sys2Proof.Machine

/-! The unicast response (R170, R172, R175, R176): whichever row answers an accepted frame, the response is a success or an
error frame with residue zero. -/

namespace Sys2Proof.Machine

/-! ## A handler raises an exception or replies -/

/-- From `u`, a handler for function code `f` ended by raising an exception or by replying, having written nothing else to
`tx_buf` before (R127, R170, R177). -/
def RaisesOrReplies (u : State) (f : Byte) (x : Except Fault Handled) : Prop :=
  ∃ v : State, v.txBuf = u.txBuf ∧ ((∃ e, x = .ok (raised v f e)) ∨ ∃ bs, x = .ok (replied v bs))

section
variable {u : State} {n : Nat} {a f b2 b3 b4 b5 : Byte} {data : List Byte}

theorem RaisesOrReplies.raise {v : State} {e : Byte} {x : Except Fault Handled} (hx : x = .ok (raised v f e))
    (hv : v.txBuf = u.txBuf) : RaisesOrReplies u f x :=
  ⟨v, hv, Or.inl ⟨e, hx⟩⟩

theorem RaisesOrReplies.reply {v : State} {bs : List Byte} {x : Except Fault Handled} (hx : x = .ok (replied v bs))
    (hv : v.txBuf = u.txBuf) : RaisesOrReplies u f x :=
  ⟨v, hv, Or.inr ⟨bs, hx⟩⟩

/-- The order of the tests is R141's: exception, null data, fit. -/
theorem readReply_raisesOrReplies (h : Ready u n a f b2 b3 b4 b5 data) (x : Answer) :
    RaisesOrReplies u f (readReply x u) := by
  by_cases hex : x.ex = 0x00
  · cases hnull : x.isNull with
    | true => exact .raise (readReply_null h hex hnull) rfl
    | false =>
      rcases Nat.lt_or_ge u.cfg.txCap (3 + x.data.length + 2) with hlong | hfit
      · exact .raise (readReply_tooLong h hex hnull hlong) rfl
      · exact .reply (readReply_data hex hnull hfit) rfl
  · exact .raise (readReply_exception h hex) rfl

theorem readHandler_raisesOrReplies (h : Ready u n a f b2 b3 b4 b5 data) (k : CbKind) :
    RaisesOrReplies u f (readHandler k n u) := by
  cases hb : u.cfg.cbBound.bound k with
  | false => exact .raise (readHandler_unbound h hb) rfl
  | true =>
    rw [readHandler_bound h hb]
    exact readReply_raisesOrReplies (h.callback _) _

theorem writeHandler_raisesOrReplies (h : Ready u n a f b2 b3 b4 b5 data) (k : CbKind) :
    RaisesOrReplies u f (writeHandler k n u) := by
  cases hb : u.cfg.cbBound.bound k with
  | false => exact .raise (writeHandler_unbound h hb) rfl
  | true =>
    by_cases hex : u.nextAnswer.ex = 0x00
    · exact .reply (writeHandler_echo h hb hex) rfl
    · exact .raise (writeHandler_exception h hb hex) rfl

theorem handleDiagUser_raisesOrReplies (h : Ready u n a f b2 b3 b4 b5 data) (subfn : Word) :
    RaisesOrReplies u f (handleDiagUser subfn n u) := by
  by_cases hex : u.nextAnswer.ex = 0x00
  · exact .reply (handleDiagUser_value h subfn hex) rfl
  · exact .raise (handleDiagUser_exception h subfn hex) rfl

/-- The handler of every row but PROCESS itself. -/
theorem handlerOf_raisesOrReplies_of_function {i : Instr} (hi : runsProcess i = true) (hp : i ≠ .process)
    (h : Ready u n a f b2 b3 b4 b5 data) : RaisesOrReplies u f (handlerOf i n u) := by
  cases i with
  | nop | ingest _ | drain => cases hi
  | process => exact absurd rfl hp
  | readCoils | readInputs | readHoldingRegisters => exact readHandler_raisesOrReplies h _
  | writeSingleRegister | writeMultipleCoils | writeMultipleRegisters => exact writeHandler_raisesOrReplies h _
  | diagEcho => exact .reply (handleDiagEcho_ok h) rfl
  | diagStatSeen | diagStatAddressed | diagStatOk | diagStatErr | diagStatInvalid =>
    exact .reply (handleDiagStat_ok h _) rfl
  | diagUser subfn => exact handleDiagUser_raisesOrReplies h subfn
  | diagUnbound _ => exact .raise (handleDiagUnbound_ok h) rfl
  | unrecognized _ => exact .raise (handleUnrecognized_ok h) rfl

/-- The dispatch runs a function row's handler (R127). -/
theorem dispatch_raisesOrReplies (h : Ready u n a f b2 b3 b4 b5 data) : RaisesOrReplies u f (dispatch n u) := by
  obtain ⟨hi, hp⟩ := decodeFunction_is_function u.cfg f (beWord b2 b3)
  rw [dispatch_eq_handlerOf (h.byte 1 (by omega)) (fun _ => h.readsF) n]
  exact handlerOf_raisesOrReplies_of_function hi hp h

theorem handlerOf_raisesOrReplies {i : Instr} (hi : runsProcess i = true) (h : Ready u n a f b2 b3 b4 b5 data) :
    RaisesOrReplies u f (handlerOf i n u) := by
  by_cases hp : i = .process
  · subst hp
    exact dispatch_raisesOrReplies h
  · exact handlerOf_raisesOrReplies_of_function hi hp h

end

/-! ## The two kinds of response (R175) -/

/-- What precedes the CRC in a response from the address `a` to a request with function code `f`: an error payload after an
exception, else a success payload. -/
inductive ResponseBody (a f : Byte) : HandlerOutcome → List Byte → Prop where
  | error (e : Byte) : ResponseBody a f .answeredError [a, f ||| 0x80, e]
  | success (bs : List Byte) (hlen : 1 ≤ bs.length) : ResponseBody a f .ok ([a, f] ++ bs)

theorem ResponseBody.three_le_length {a f : Byte} {o : HandlerOutcome} {body : List Byte} (h : ResponseBody a f o body) :
    3 ≤ body.length := by
  cases h with
  | error e => exact Nat.le_refl 3
  | success bs hlen => rw [List.length_append]; exact Nat.add_le_add_left hlen 2

/-- Every row that runs a PROCESS answers an accepted unicast frame, with a response of one of the two kinds. -/
theorem exec_answers {i : Instr} {s : State} {f b2 b3 b4 b5 : Byte} (hi : runsProcess i = true) (hI : s.Inv)
    (hreq : s.HasRequest s.cfg.address f b2 b3 b4 b5) :
    ∃ t body o, exec i s = .next t ∧ s.Answered t body o ∧ ResponseBody s.cfg.address f o body := by
  obtain ⟨_, hready⟩ := ready_of_request false hI hreq
  obtain ⟨v, hv, ⟨e, hh⟩ | ⟨bs, hh⟩⟩ := handlerOf_raisesOrReplies hi hready
  · obtain ⟨t, hrun, hans, -⟩ := exec_answers_raised hi hI hreq hv hh
    exact ⟨t, _, _, hrun, hans, .error e⟩
  · obtain ⟨t, hrun, hans, -⟩ := exec_answers_replied hi hI hreq hv hh
    have hlen : 3 ≤ 2 + bs.length := (sound_handlerOf i _ _ _ hh).lenMin
    exact ⟨t, _, _, hrun, hans, .success bs (by omega)⟩

/-! ## The statements -/

/-- Settles O25: a response is at least three bytes and their own CRC, which clears the residue. -/
theorem unicastFrameIsAnswered : Obligations.UnicastFrameIsAnswered := by
  intro i s f b2 b3 b4 b5 hi hI hreq
  obtain ⟨t, body, o, hrun, hans, hbody⟩ := exec_answers hi hI hreq
  have hlen := hbody.three_le_length
  refine ⟨t, body ++ crcBytes (crc16 body), o, hrun, hans.common, ?_, ?_, ?_, crc16_append_crcBytes body⟩
  · rw [hans.txLen]
    omega
  · rw [hans.txRem, hans.txLen]
  · rw [hans.txLen]
    exact hans.frame

/-- Settles O37: the outcome tells the two kinds of response apart, and the first bytes are the body's. -/
theorem responseIsSuccessOrErrorFrame : Obligations.ResponseIsSuccessOrErrorFrame := by
  intro i s t f b2 b3 b4 b5 hi hI hreq hnext
  obtain ⟨t', body, o, hrun, hans, hbody⟩ := exec_answers hi hI hreq
  obtain rfl : t' = t := Host.Outcome.next.inj (hrun.symm.trans hnext)
  have houtput : t'.outputs.head? = some ⟨o.result, 0x00⟩ := congrArg List.head? hans.common.outputs
  have hlen := hbody.three_le_length
  have hfirst := fun k (hk : k ≤ 3) => Memory.readRange_sub hans.frame 0 k (by omega)
  cases hbody with
  | error e => exact Or.inl ⟨houtput, hans.txLen, e, hfirst 3 (by omega)⟩
  | success bs _ => exact Or.inr ⟨houtput, hfirst 2 (by omega)⟩

/-- Settles O38: raising writes the two bytes from offset 1 on and nothing else. -/
theorem exceptionEntryWritesTwoBytes : Obligations.ExceptionEntryWritesTwoBytes := by
  intro s e f hI hf hrx
  obtain ⟨-, -, htx, -⟩ := Laws.bounds_of_wf hI.cfgOk
  have hrun : raiseException e s = .ok (raised s f e) :=
    raiseException_eq_ok.mpr ⟨f, State.rxByte_eq_ok.mpr ⟨hrx, hf⟩, by omega, rfl⟩
  have hbytes := Memory.readRange_writes s.txBuf 1 [f ||| 0x80, e]
  refine ⟨_, hrun, rfl, rfl, rfl, Memory.read_of_readRange hbytes 0 Nat.two_pos,
    Memory.read_of_readRange hbytes 1 Nat.one_lt_two, ?_⟩
  intro k hk1 hk2
  exact Memory.read_writes_other _ _ _ _ (by rw [List.length_cons, List.length_singleton]; omega)

end Sys2Proof.Machine

/-! The statements of DRAIN (R190 to R194): one DRAIN, the rest of a response, and DRAIN beside INGEST. -/

namespace Sys2Proof.Machine

/-- The state after DRAINs that returned the bytes `bs`, in that order (R190). -/
def State.drained (s : State) (bs : List Byte) : State :=
  { s with
    txRem := s.txRem - bs.length
    outputs := (bs.map fun b => (⟨.ok, b⟩ : Output)).reverse ++ s.outputs }

/-! ## The bytes that are not yet drained -/

theorem Memory.readRange_eq_cons {m : Memory} {a n : Nat} {b : Byte} {bs : List Byte} :
    m.readRange a (n + 1) = some (b :: bs) ↔ m.read a = some b ∧ m.readRange (a + 1) n = some bs := by
  rw [Memory.readRange]
  cases m.read a <;> cases m.readRange (a + 1) n <;> simp

/-- The last `rem` bytes of a response of `len` bytes. -/
theorem Memory.readRange_undrained {m : Memory} {len rem : Nat} {bs : List Byte} (h : m.readRange 0 len = some bs)
    (hle : rem ≤ len) : m.readRange (len - rem) rem = some (bs.drop (len - rem)) := by
  have hlen := Memory.readRange_length h
  rw [Memory.readRange_sub h (len - rem) rem (by omega), List.take_of_length_le (by rw [List.length_drop]; omega)]

/-! ## One DRAIN -/

theorem exec_drain_ended {s : State} (h : s.txRem = 0) :
    exec .drain s = .next { s with outputs := ⟨.msgEnded, 0x00⟩ :: s.outputs } :=
  outcomeOf_eq_next.mpr (drain_eq_ok.mpr (Or.inl ⟨h, rfl⟩))

theorem exec_drain_next {s : State} {b : Byte} (hrem : 0 < s.txRem) (hle : s.txRem ≤ s.txLen)
    (hcap : s.txLen ≤ s.cfg.txCap) (hb : s.txBuf.read (s.txLen - s.txRem) = some b) :
    exec .drain s = .next (s.drained [b]) :=
  have hbyte := State.txByte_eq_ok.mpr ⟨by omega, hb⟩
  outcomeOf_eq_next.mpr (drain_eq_ok.mpr (Or.inr ⟨hrem, hle, b, hbyte, rfl⟩))

/-- A DRAIN's output depends on the transmit side alone, and `tx_rem` and the output are all it writes (R190, R191). -/
theorem exec_drain_of_txInv {c : Config} {m : Memory} {len rem : Nat} (h : TxInv c m len rem) :
    ∃ o, ∀ s : State, s.cfg = c → s.txBuf = m → s.txLen = len → s.txRem = rem →
      exec .drain s = .next { s with txRem := rem - 1, outputs := o :: s.outputs } := by
  rcases Nat.eq_zero_or_pos rem with rfl | hrem
  · refine ⟨⟨.msgEnded, 0x00⟩, fun s _ _ _ h0 => ?_⟩
    rw [exec_drain_ended h0, Nat.zero_sub, ← h0]
  · have hle := h.remLe
    obtain ⟨bs, hbs, -⟩ := h.frame
    have hlen := Memory.readRange_length hbs
    have hread := Memory.read_of_readRange hbs (len - rem) (by omega)
    rw [Nat.zero_add, List.getElem?_eq_getElem (by omega)] at hread
    refine ⟨⟨.ok, bs[len - rem]⟩, ?_⟩
    rintro s rfl rfl rfl rfl
    exact exec_drain_next hrem hle h.lenLe hread

/-! ## A sequence of DRAINs -/

theorem drains_succ_of_next {s t : State} (k : Nat) (h : exec .drain s = .next t) : drains (k + 1) s = drains k t := by
  rw [drains, h]

/-- The first byte and then the others. -/
theorem State.drained_drained (s : State) (b : Byte) (bs : List Byte) :
    (s.drained [b]).drained bs = s.drained (b :: bs) := by
  simp [State.drained, Nat.sub_sub, Nat.add_comm 1]

/-- As many DRAINs as there are bytes in `bs`, the first bytes that are not yet drained. -/
theorem drains_eq {bs : List Byte} {s : State} (hrem : bs.length ≤ s.txRem) (hle : s.txRem ≤ s.txLen)
    (hcap : s.txLen ≤ s.cfg.txCap) (hbs : s.txBuf.readRange (s.txLen - s.txRem) bs.length = some bs) :
    drains bs.length s = .next (s.drained bs) := by
  induction bs generalizing s with
  | nil => rfl
  | cons b bs ih =>
    rw [List.length_cons] at hrem hbs
    obtain ⟨hb, hrest⟩ := Memory.readRange_eq_cons.mp hbs
    have hfirst : exec .drain s = .next (s.drained [b]) := exec_drain_next (by omega) hle hcap hb
    have hnext : s.txLen - (s.txRem - 1) = s.txLen - s.txRem + 1 := by omega
    have hothers : drains bs.length (s.drained [b]) = .next ((s.drained [b]).drained bs) :=
      ih (Nat.le_sub_of_add_le hrem) (Nat.le_trans (Nat.sub_le _ _) hle) hcap (hnext ▸ hrest)
    rw [List.length_cons, drains_succ_of_next _ hfirst, hothers, State.drained_drained]

/-! ## The statements -/

/-- Settles O14: one DRAIN with nothing left, and one that returns a byte. -/
theorem drainReturnsNextByte : Obligations.DrainReturnsNextByte :=
  ⟨fun _ _ => rfl, fun _ => exec_drain_ended, fun _ _ => exec_drain_next⟩

/-- Settles O15: the bytes left are the last `tx_rem` of the response, and as many DRAINs return all of them. -/
theorem drainsReturnTheFrameInWireOrder : Obligations.DrainsReturnTheFrameInWireOrder := by
  intro s bs hI hbs
  have hleft := Memory.readRange_undrained hbs hI.txRemLe
  have hlen := Memory.readRange_length hleft
  have hrun := drains_eq hlen.le hI.txRemLe hI.txLenLe (hlen.symm ▸ hleft)
  rw [State.drained, hlen, Nat.sub_self] at hrun
  exact ⟨_, hrun, rfl, exec_drain_ended rfl⟩

/-- Settles O16: an INGEST leaves the transmit side, which alone decides what a DRAIN returns, and a DRAIN leaves the
receive side. -/
theorem ingestAndDrainCommute : Obligations.IngestAndDrainCommute := by
  intro s b hI
  obtain ⟨-, -, htx, -⟩ := State.inv_iff.mp hI
  obtain ⟨p, hdrain⟩ := exec_drain_of_txInv htx
  exact ⟨_, _, _, _, _, p,
    exec_ingest_eq b hI.rxLenLt, hdrain (s.ingested [b]) rfl rfl rfl rfl,
    hdrain s rfl rfl rfl rfl, exec_ingest_eq b hI.rxLenLt,
    rfl, rfl, rfl⟩

end Sys2Proof.Machine

/-! The frames that a PROCESS drops (R123 to R125, R202 to R205): too short, a nonzero residue, another address, an
unsupported broadcast. -/

namespace Sys2Proof.Machine

/-! ## Address resolution of a frame that is not accepted (R125) -/

theorem resolveAddress_mismatch {c : Config} {a : Byte} (f : Byte) (ha : a ≠ c.address) (h0 : a ≠ 0x00) :
    resolveAddress c a f = .mismatch := by
  rw [resolveAddress, if_neg ha, if_neg fun h => h0 h.1, if_neg h0]

theorem resolveAddress_unsupported {c : Config} {f : Byte} (haddr : c.address ≠ 0x00) (hf : f ≠ c.fc.wmr) :
    resolveAddress c 0x00 f = .unsupported := by
  rw [resolveAddress, if_neg haddr.symm, if_neg fun h => hf h.2, if_pos rfl]

/-- The two bytes that address resolution reads are those of the request (R57, R125). -/
theorem rxByte_of_request {s : State} {a f b2 b3 b4 b5 : Byte} (hI : s.Inv) (hreq : s.HasRequest a f b2 b3 b4 b5) :
    s.rxByte 0 = .ok a ∧ s.rxByte 1 = .ok f := by
  obtain ⟨_, hready⟩ := ready_of_request false hI hreq
  exact ⟨hready.byte 0 (by omega), hready.byte 1 (by omega)⟩

/-! ## The statements -/

/-- Settles O18: the length test is the first one past the null guard. -/
theorem shortFrameIsDropped : Obligations.ShortFrameIsDropped :=
  fun _ _ hi hctx hlen => exec_of_processEnd hi (.short hctx hlen rfl)

/-- Settles O19: the CRC test comes next and reads no byte of the frame, so no invariant is needed. -/
theorem badCrcIsDropped : Obligations.BadCrcIsDropped :=
  fun _ _ hi hctx hlen hcrc => exec_of_processEnd hi (.crc hctx hlen hcrc rfl)

/-- Settles O20: an address byte that is neither `ADDRESS` nor 0 fails every test of address resolution. -/
theorem otherAddressIsDropped : Obligations.OtherAddressIsDropped := by
  intro i s a f b2 b3 b4 b5 hi hI hreq haddr h0
  obtain ⟨ha, hf⟩ := rxByte_of_request hI hreq
  exact exec_of_processEnd hi
    (.mismatch hreq.ctx hreq.len hreq.residue a f ha hf (resolveAddress_mismatch f haddr h0) rfl)

/-- Settles O21: with `ADDRESS` nonzero the byte 0 is a broadcast, and only write-multiple-registers is accepted as one. -/
theorem otherBroadcastIsDropped : Obligations.OtherBroadcastIsDropped := by
  intro i s f b2 b3 b4 b5 hi hI hreq haddr hwmr
  obtain ⟨ha, hf⟩ := rxByte_of_request hI hreq
  exact exec_of_processEnd hi
    (.unsupported hreq.ctx hreq.len hreq.residue 0x00 f ha hf (resolveAddress_unsupported haddr hwmr) rfl)

end Sys2Proof.Machine

/-! The reset event and what follows it (R230, R231), and that no step stops (R65, R249): whatever the port presents, a step
from a state that meets the invariant has a next state, with the same parameters. -/

namespace Sys2Proof.Machine

/-! ## A step of an accepted configuration -/

@[simp] theorem State.fetch_cfg (s : State) : s.fetch.2.cfg = s.cfg := by
  unfold State.fetch
  split
  · rfl
  · rfl

/-- A step resets the machine or runs one instruction, with the event taken from the port (R5). -/
theorem step_resets_or_runs {s : State} (h : s.cfg.wf = true) :
    step s = .next s.fetch.2.applyReset ∨ ∃ i, step s = exec i s.fetch.2 := by
  match hf : s.fetch with
  | (.reset, u) => exact Or.inl (step_of_fetch_reset h hf)
  | (.command cmd din, u) => exact Or.inr ⟨_, step_of_fetch_command h hf⟩

theorem wf_of_step_next {s t : State} (h : step s = .next t) : s.cfg.wf = true := by
  by_contra hwf
  rw [step_of_not_wf (Bool.eq_false_of_not_eq_true hwf)] at h
  cases h

/-! ## The parameters (R231) -/

theorem exec_cfg {i : Instr} {s t : State} (h : exec i s = .next t) : t.cfg = s.cfg := by
  cases exec_end h with
  | nop | ended | drained => rfl
  | ingest b _ hlen => exact State.advance_cfg _
  | process _ _ _ hi he =>
    obtain ⟨r, hp⟩ := he.processed (sound_handlerOf i)
    exact hp.cfg

/-! ## Every instruction has a next state (R65) -/

theorem eq_address_of_unicast {c : Config} {a f : Byte} (h : resolveAddress c a f = .unicast) : a = c.address := by
  unfold resolveAddress at h
  split_ifs at h with ha
  exact ha

/-- A frame that passes the guard, the length test and the CRC test is a request: its first six bytes have values (R35,
R65). -/
theorem State.Inv.hasRequest {s : State} (hI : s.Inv) (hctx : s.cfg.ctxBound = true) (hlen : 7 ≤ s.rxLen)
    (hcrc : s.crc = 0x0000) : ∃ a f b2 b3 b4 b5, s.HasRequest a f b2 b3 b4 b5 := by
  obtain ⟨bs, hbs, -⟩ := hI.rxFrame
  obtain ⟨six, hsix⟩ : ∃ six, s.rxBuf.readRange 0 6 = some six := ⟨_, Memory.readRange_sub hbs 0 6 (by omega)⟩
  match six, Memory.readRange_length hsix with
  | [a, f, b2, b3, b4, b5], _ => exact ⟨a, f, b2, b3, b4, b5, hctx, hlen, hcrc, hsix⟩

/-- Each class of address has its own end of a PROCESS (R125). -/
theorem exec_request_next {i : Instr} {s : State} {a f b2 b3 b4 b5 : Byte} (hi : runsProcess i = true) (hI : s.Inv)
    (hreq : s.HasRequest a f b2 b3 b4 b5) : ∃ t, exec i s = .next t := by
  obtain ⟨ha, hf⟩ := rxByte_of_request hI hreq
  cases hres : resolveAddress s.cfg a f with
  | unicast =>
    obtain rfl := eq_address_of_unicast hres
    obtain ⟨t, _, _, hrun, -⟩ := exec_answers hi hI hreq
    exact ⟨t, hrun⟩
  | broadcast =>
    obtain ⟨_, hready⟩ := ready_of_request true hI hreq
    obtain ⟨r, hh⟩ := handlerOf_total i hready
    obtain ⟨t, hrun, -⟩ := exec_suppresses hi hI hreq hres hh le_rfl
    exact ⟨t, hrun⟩
  | unsupported =>
    exact ⟨_, exec_of_processEnd hi (.unsupported hreq.ctx hreq.len hreq.residue a f ha hf hres rfl)⟩
  | mismatch =>
    exact ⟨_, exec_of_processEnd hi (.mismatch hreq.ctx hreq.len hreq.residue a f ha hf hres rfl)⟩

/-- The guard, the length test and the CRC test come first, in that order (R121, R123, R124). -/
theorem exec_process_next {i : Instr} {s : State} (hi : runsProcess i = true) (hI : s.Inv) :
    ∃ t, exec i s = .next t := by
  cases hctx : s.cfg.ctxBound with
  | false => exact ⟨_, exec_of_processEnd hi (.null hctx rfl)⟩
  | true =>
    rcases Nat.lt_or_ge s.rxLen 7 with hshort | hlen
    · exact ⟨_, exec_of_processEnd hi (.short hctx hshort rfl)⟩
    · by_cases hcrc : s.crc = 0x0000
      · obtain ⟨a, f, b2, b3, b4, b5, hreq⟩ := hI.hasRequest hctx hlen hcrc
        exact exec_request_next hi hI hreq
      · exact ⟨_, exec_of_processEnd hi (.crc hctx hlen hcrc rfl)⟩

theorem exec_next (i : Instr) {s : State} (hI : s.Inv) : ∃ t, exec i s = .next t := by
  cases i with
  | nop => exact ⟨_, rfl⟩
  | ingest b => exact ⟨_, exec_ingest_eq b hI.rxLenLt⟩
  | drain =>
    obtain ⟨-, -, htx, -⟩ := State.inv_iff.mp hI
    obtain ⟨_, hdrain⟩ := exec_drain_of_txInv htx
    exact ⟨_, hdrain s rfl rfl rfl rfl⟩
  | _ => exact exec_process_next rfl hI

/-! ## The statements -/

/-- Settles O55: a reset and every instruction keep the parameters, and so does taking the event from the port. -/
theorem parametersNeverChange : Obligations.ParametersNeverChange := by
  intro s t h
  rcases step_resets_or_runs (wf_of_step_next h) with hreset | ⟨i, hrun⟩
  · obtain rfl := Host.Outcome.next.inj (hreset.symm.trans h)
    exact s.fetch_cfg
  · exact (exec_cfg (hrun.symm.trans h)).trans s.fetch_cfg

/-- Settles O57: a reset always has a next state, and so has every instruction under the invariant. -/
theorem stepNeverStops : Obligations.StepNeverStops := by
  intro s hI
  rcases step_resets_or_runs hI.cfgOk with hreset | ⟨i, hrun⟩
  · exact ⟨_, hreset⟩
  · obtain ⟨t, ht⟩ := exec_next i hI.fetch
    exact ⟨t, hrun.trans ht⟩

/-- Settles O50: the reset values do not depend on the state, and the event is taken from the port. -/
theorem resetEventResets : Obligations.ResetEventResets :=
  fun _ _ hwf hpending => step_of_fetch_reset hwf (State.fetch_of_pending hpending)

/-- Settles O51: after reset nothing is left to drain, the frame is too short, and the buffer has room for a byte. -/
theorem firstCommandsAfterReset : Obligations.FirstCommandsAfterReset := by
  intro c hwf
  refine ⟨⟨_, exec_drain_ended rfl, rfl⟩, ?_, fun b => ?_⟩
  · cases hctx : c.ctxBound with
    | false => exact ⟨_, nullContextReturnsErrNull .process (State.resetOf c) rfl hctx, rfl⟩
    | true => exact ⟨_, shortFrameIsDropped .process (State.resetOf c) rfl hctx (Nat.succ_pos 6), rfl⟩
  · exact ⟨_, exec_ingest_eq b (resetOf_inv hwf).rxLenLt, Memory.read_write_same [] 0 b, rfl⟩

end Sys2Proof.Machine
